-- ==== Sys2Proof/Word.lean ====
section
/-! DEFINITION. The data types of the block's interfaces: a byte (spec/00_scope.md R7), a command word
(spec/30_encoding.md R77) and a frame (spec/00_scope.md, glossary). -/

namespace Sys2Proof

/-- A byte is 8 bits, an unsigned value in `[0, 255]` (R7). -/
abbrev Byte := BitVec 8

/-- A command word is 16 bits wide (R77). -/
abbrev Word := BitVec 16

/-- A frame is a byte sequence, byte 0 first; its length is the `FRAME_SIZE` of the configuration
(glossary of 00_scope.md; `frameWf` of WellFormed.lean checks it). -/
abbrev Frame := List Byte

end Sys2Proof
end

