-- ==== Sys2Proof/Config.lean ====
section
/-! DEFINITION. The configuration of one block: `FRAME_SIZE` (spec/00_scope.md R6, spec/10_state.md R32). -/

namespace Sys2Proof

/-- The block's only configuration value (R6). `N = 0` is refused as a configuration
(92_eei_decisions.md D1): no such value of this type can be built. -/
structure Params where
  /-- `FRAME_SIZE`, written `N` in the spec: the frame length in bytes. -/
  frameSize : Nat
  /-- The constraint `N >= 1` of R6. -/
  frameSize_pos : 1 ≤ frameSize
deriving DecidableEq, Repr

/-- The configuration of this hardware: `N = 64` (R6, decision D1; notes/assumptions/1.md). -/
def Params.standard : Params := ⟨64, by decide⟩

end Sys2Proof
end

