-- ==== Sys2Proof/Machine/State.lean ====
section
/-! DEFINITION. The state of the block (spec/10_state.md, spec/70_reset_and_hazards.md R190), the
environment's inputs as plain data, and the reasons a step can stop. -/

namespace Sys2Proof.Machine

/-- The two states of the Relay (R20): `UNINIT` and `READY`. -/
inductive RelayState where
  | uninit
  | ready
deriving DecidableEq, Repr

/-- The ports by which a command can come (spec/30_encoding.md R71 to R74). -/
inductive Port where
  /-- The command port: every command, as a 16-bit word (R71). -/
  | command
  /-- The stream receive port: FEED_BYTE (R72). -/
  | streamReceive
  /-- The transport event port: TEVENT (R73). -/
  | transportEvent
  /-- The frame input port: SEND (R74). -/
  | frameIn
deriving DecidableEq, Repr

/-- Completion statuses (spec/60_exceptions.md R174). -/
inductive Status where
  | ok
  | configurationError
deriving DecidableEq, Repr

/-- Codes of the error report port: only `SHORT_WRITE_ERROR` is ever driven (R170, R174). -/
inductive ReportCode where
  | shortWriteError
deriving DecidableEq, Repr

/-- The events of the output history (R34). -/
inductive Event where
  /-- `Deliver(F)`: a frame to the sink. -/
  | deliver (f : Frame)
  /-- `TxWrite(F)`: a frame to the stream transport, in one write. -/
  | txWrite (f : Frame)
  /-- `Report(code, info)` on the error report port. -/
  | report (code : ReportCode) (info : Nat)
  /-- The completion status of a command, with the port the command came by: only a command of the
  command port shows its status (R71; notes/assumptions/7.md). -/
  | status (via : Port) (code : Status)
deriving DecidableEq, Repr

/-- What the environment supplies during one command (the draws of spec/00_scope.md section 5). -/
structure Draws where
  /-- `tp_connected` (R75). -/
  connected : Bool
  /-- The value on `fi_data`; the bus carries its low `FRAME_W` bits (R74). -/
  fiData : Nat
  /-- The transport's answer to a write within the command: the value on `tx_ack_count`, or no
  `tx_ack_valid` (R74, R153). -/
  ackCount : Option Nat
deriving DecidableEq, Repr

/-- What one beat of the environment carries. -/
inductive Offer where
  /-- A command word on the command port (R71). -/
  | command (word : Word)
  /-- A byte on the stream receive port (R72). -/
  | rxByte (b : Byte)
  /-- An event tag on the transport event port (R73). -/
  | event (tag : Byte)
  /-- A frame, the draws' `fiData`, on the frame input port (R74). -/
  | frameIn
  /-- A later `tx_ack_valid` with its `tx_ack_count` (R74, R153). -/
  | ack (count : Nat)
deriving DecidableEq, Repr

/-- One element of the environment's linear sequence (R87), with its draws (R84: an environment draw
is an annotation on the command's line). -/
structure Beat where
  offer : Offer
  draws : Draws
deriving DecidableEq, Repr

/-- The accumulator's cells that hold a byte, by index (R24); a cell that is not listed holds no value. -/
abbrev Memory := List Host.Cell

/-- Why a step faults. The block itself has no trap (R177). -/
inductive Fault where
  /-- A read of the accumulator cell `i`, which holds no value (R24, R179). Raised by the drain of
  FEED_BYTE; no state reached from reset raises it (R27). Safe: the machine stops. -/
  | unwrittenCell (i : Nat)
  /-- An access to the cell `i`, where the accumulator has no such cell: `i >= N` (R24, R25). Raised by
  the append of FEED_BYTE; no state reached from reset raises it (R22). Safe: the machine stops. -/
  | noSuchCell (i : Nat)
deriving DecidableEq, Repr

/-- Why a step is refused by the model. (The spec's own `refuse` outcome is not one of these: it is a
next state with the refusal mark set, R35.) -/
inductive Refusal where
  /-- An instruction without a meaning; no arm of `exec` answers it any more. Safe: the machine stops. -/
  | notModelled (mnemonic : String)
  /-- An acknowledge beat while no write is outstanding: the environment breaks its duty 1 of R199, and
  no rule says what the block does (notes/assumptions/6.md). Raised by `step` alone. Safe: the machine
  stops. -/
  | unsolicitedAck
deriving DecidableEq, Repr

/-- The whole state: the block's own elements, the spec's bookkeeping, and the environment's inputs. -/
structure State where
  /-- Configuration, not state of the block; no command changes it (R6, R32). -/
  cfg : Params
  /-- The Relay state register (R20). -/
  st : RelayState
  /-- The length register; below `N` between operations (R22). -/
  len : Nat
  /-- The accumulator (R24). -/
  buf : Memory
  /-- The port of the SEND whose write waits for its acknowledge, if there is one (R153, R190). -/
  outstanding : Option Port
  /-- The output history, oldest event first (R34). -/
  history : List Event
  /-- The refusal mark (R35). -/
  refused : Bool
  /-- The index of the next command: how many have completed or been refused (R87). -/
  index : Nat
  /-- The model's own: the port by which the command being performed came. -/
  via : Port
  /-- The model's own: the environment's draws for the command being performed. -/
  draws : Draws
  /-- The model's own: the environment's beats not yet taken, in command order (R67, R87). -/
  pending : List Beat
deriving DecidableEq, Repr

/-- Power-on reset of a block with configuration `p` (R190). The environment's inputs hold the values
of notes/assumptions/2.md. -/
def State.powerOn (p : Params) : State :=
  { cfg := p
    st := .uninit
    len := 0
    buf := []
    outstanding := none
    history := []
    refused := false
    index := 0
    via := .command
    draws := { connected := false, fiData := 0, ackCount := none }
    pending := [] }

/-- The machine right after reset: R190 with the default `N = 64` (R6). -/
def State.reset : State := State.powerOn Params.standard

end Sys2Proof.Machine
end

