-- ==== Sys2Proof/Syntax.lean ====
section
/-! DEFINITION. The commands of the block, one constructor for each row of spec/opcode_table.json
(spec/30_encoding.md R78). Operands that are not in the command word (SEND's frame and count, START's
`connected`) are draws from the ports and stand in State (R79). -/

namespace Sys2Proof

/-- The seven commands (R78). -/
inductive Instr where
  /-- FEED_BYTE with its data byte (R100). -/
  | feedByte (b : Byte)
  /-- RESET (R106). -/
  | reset
  /-- START (R130). -/
  | start
  /-- STOP (R135). -/
  | stop
  /-- RESTORE (R138). -/
  | restore
  /-- SEND (R150). -/
  | send
  /-- TEVENT with its opaque event tag (R160). -/
  | tevent (t : Byte)
deriving DecidableEq, Repr

end Sys2Proof
end

