-- ==== Sys2Proof/WellFormed.lean ====
section
/-! DEFINITION. Which operands the spec admits. A command's operands in the word are bytes, so every
`Instr` is well formed by its type (spec/30_encoding.md R79); what has to be checked is what stands
outside the word: frames (spec/20_memory.md R60), bus values (R74) and the integers of the assembler
(R84). -/

namespace Sys2Proof

/-- Every command is well formed: its only operands are 8-bit fields of the word (R77, R79). -/
def Instr.wf : Instr → Bool
  | .feedByte _ => true
  | .reset => true
  | .start => true
  | .stop => true
  | .restore => true
  | .send => true
  | .tevent _ => true

/-- A frame holds exactly `N` bytes (R60, R84). -/
def frameWf (p : Params) (f : Frame) : Bool := decide (f.length = p.frameSize)

/-- `<byte>` and `<tag>` of the assembler are integers in `[0, 255]` (R84). -/
def byteWf (n : Nat) : Bool := decide (n ≤ 255)

/-- A value that a bus of `width` bits can carry (R74, R79). -/
def busWf (width value : Nat) : Bool := decide (value < 2 ^ width)

end Sys2Proof
end

