-- ==== Sys2Proof/Machine/Ops.lean ====
section
/-! DEFINITION. The named operations over the accumulator, the registers and the output history, from
which every command is built (spec/00_scope.md section 5, spec/10_state.md R25, R34, R35). The block
has no trap (spec/60_exceptions.md R177): its two errors are the operations `complete` with
`CONFIGURATION_ERROR` and `finishWrite` with its report. -/

namespace Sys2Proof.Machine

/-- The three outcomes of a step of this machine. -/
abbrev Result := Host.Outcome State Fault Refusal

/-! ## The accumulator -/

/-- The byte of cell `i`, or none where the cell holds no value (`⊥` of R24). -/
def Memory.read : Memory → Nat → Option Byte
  | [], _ => none
  | c :: m, i => if c.1 = i then some c.2 else Memory.read m i

/-- Cell `i` holds `b` from now on; the cells stay in rising order of index. -/
def Memory.write : Memory → Nat → Byte → Memory
  | [], i, b => [(i, b)]
  | c :: m, i, b =>
    if i < c.1 then (i, b) :: c :: m
    else if c.1 = i then (i, b) :: m
    else c :: Memory.write m i b

/-- The canonical form: indexes strictly rising. (An unlisted cell reads as no value, so no listed
cell can equal what an unlisted one reads as.) -/
def Memory.wf : Memory → Bool
  | [] => true
  | [_] => true
  | c :: d :: m => decide (c.1 < d.1) && Memory.wf (d :: m)

/-- The bytes of `n` cells from cell `i` on, or the first of these cells that holds no value. -/
def Memory.readCells (m : Memory) : Nat → Nat → Except Nat (List Byte)
  | _, 0 => .ok []
  | i, n + 1 =>
    match m.read i with
    | none => .error i
    | some b =>
      match Memory.readCells m (i + 1) n with
      | .error j => .error j
      | .ok bs => .ok (b :: bs)

/-! ## Register writes and output events -/

/-- `FRAME_SIZE` of this block (R6). -/
abbrev State.frameSize (s : State) : Nat := s.cfg.frameSize

/-- `s.st <- v`. -/
def State.setSt (s : State) (v : RelayState) : State := { s with st := v }

/-- `s.len <- n`. -/
def State.setLen (s : State) (n : Nat) : State := { s with len := n }

/-- The accumulator becomes `m`. -/
def State.setBuf (s : State) (m : Memory) : State := { s with buf := m }

/-- The write of the SEND that came by the port `w` waits for its acknowledge; none waits for `none`
(R153). -/
def State.setOutstanding (s : State) (w : Option Port) : State := { s with outstanding := w }

/-- `emit e`: the output history is only appended to (R34). -/
def State.emit (s : State) (e : Event) : State := { s with history := s.history ++ [e] }

/-- `return code` of the command that came by the port `via`: its status enters the history (R34) and
the index moves on by one (R87). -/
def State.completeFor (s : State) (via : Port) (code : Status) : State :=
  { s with history := s.history ++ [.status via code], index := s.index + 1 }

/-- `return code` of the command being performed. -/
def State.complete (s : State) (code : Status) : State := s.completeFor s.via code

/-- `refuse`: the refusal mark is set (R35), nothing is emitted, and the index moves on by one (R87). -/
def State.refuse (s : State) : State := { s with refused := true, index := s.index + 1 }

/-- `hold`: the command is not accepted and nothing changes; the requester waits (R9, R87;
notes/assumptions/3.md). -/
def hold (s : State) : Result := .next s

/-! ## When a command is accepted -/

/-- No SEND write is outstanding (R153). -/
def State.writeFree (s : State) : Bool := s.outstanding.isNone

/-- The Relay relays: `st = READY` and no write is outstanding (R72, R74, R153). -/
def State.trafficReady (s : State) : Bool := decide (s.st = .ready) && s.writeFree

/-! ## Accumulator accesses -/

/-- `MemWrite(i, 1, b)`: only the cells `0 .. N-1` exist (R24, R25). -/
def State.memWrite (s : State) (i : Nat) (b : Byte) : Except Fault State :=
  if i < s.frameSize then .ok (s.setBuf (s.buf.write i b)) else .error (.noSuchCell i)

/-- `MemRead(0, N)`: the whole accumulator as one frame; it faults on a cell without a value (R24). -/
def State.memRead (s : State) : Except Fault Frame :=
  match s.buf.readCells 0 s.frameSize with
  | .ok f => .ok f
  | .error i => .error (.unwrittenCell i)

/-- The drain: the accumulator is delivered as one frame and the length becomes 0 (R26, R100, R102). -/
def State.drain (s : State) : Except Fault State :=
  match s.memRead with
  | .ok f => .ok ((s.emit (.deliver f)).setLen 0)
  | .error r => .error r

end Sys2Proof.Machine
end

