-- ==== Sys2Proof/Machine/Flags.lean ====
section
/-! DEFINITION. The block has no condition flags (spec/10_state.md R37, spec/60_exceptions.md R173: no
sticky status either). The two conditions its commands compute on the spot stand here. -/

namespace Sys2Proof.Machine

/-- The accumulator is full: `len == N` (R100). -/
def State.frameComplete (s : State) : Bool := decide (s.len = s.frameSize)

/-- The short-write test `count < N` on unsigned naturals: `count >= N` is no short write (R152). -/
def shortWrite (p : Params) (count : Nat) : Bool := decide (count < p.frameSize)

end Sys2Proof.Machine
end

