-- ==== Sys2Proof/Machine/Operands.lean ====
section
/-! DEFINITION. The widths derived from the configuration (spec/00_scope.md section 4), the packing of
frames on buses (spec/20_memory.md R55) and the operands that commands take from the ports
(spec/30_encoding.md R79). -/

namespace Sys2Proof.Machine

/-! ## Widths -/

/-- The least `k` with `n <= 2^k`. -/
def ceilLog2 (n : Nat) : Nat := if n ≤ 1 then 0 else Nat.log2 (n - 1) + 1

/-- `LEN_W = max(1, ceil(log2(N)))`, the bits of the length register (R23). -/
def lenWidth (p : Params) : Nat := max 1 (ceilLog2 p.frameSize)

/-- `CNT_W = ceil(log2(N+1))`, the bits of the write-acknowledge count (00_scope.md section 4). -/
def cntWidth (p : Params) : Nat := ceilLog2 (p.frameSize + 1)

/-- `FRAME_W = 8*N`, the bits of a frame bus (R74). -/
def frameWidth (p : Params) : Nat := 8 * p.frameSize

/-! ## Frame buses -/

/-- The first `n` lanes of a bus value: byte `k` is bits `[8k+7 : 8k]` (R55). -/
def lanes : Nat → Nat → List Byte
  | 0, _ => []
  | n + 1, v => BitVec.ofNat 8 v :: lanes n (v >>> 8)

/-- The bus value of a byte sequence, byte 0 in the least significant lane (R55). -/
def busOfFrame : List Byte → Nat
  | [] => 0
  | b :: f => b.toNat + (busOfFrame f) <<< 8

/-- The frame on a bus of `FRAME_W` bits: exactly `N` bytes (R55, R60, R79). -/
def frameOfBus (p : Params) (v : Nat) : Frame := lanes p.frameSize v

/-! ## Operands from the ports -/

/-- SEND's frame `F`, from `fi_data` (R79). -/
def State.frameOperand (s : State) : Frame := frameOfBus s.cfg s.draws.fiData

/-- `zext(tx_ack_count)`: the bus carries `CNT_W` bits, unsigned (R79, R152). -/
def countOfBus (p : Params) (v : Nat) : Nat := v % 2 ^ cntWidth p

/-- What follows the transport's answer to a write: the write is no longer outstanding, a short one is
reported once with its count, and the SEND that came by the port `via` returns `OK` (R150, R155, R172). -/
def State.finishWrite (s : State) (via : Port) (count : Nat) : State :=
  let done := s.setOutstanding none
  if shortWrite s.cfg count then
    (done.emit (.report .shortWriteError count)).completeFor via .ok
  else
    done.completeFor via .ok

end Sys2Proof.Machine
end

