-- ==== Sys2Proof/Machine/Datapath.lean ====
section
/-! DEFINITION. The traffic commands of the Relay other than FEED_BYTE (spec/42_relay_datapaths.md). -/

namespace Sys2Proof.Machine

/-- SEND (R150 to R156): held unless the Relay relays; one `TxWrite` of the frame on `fi_data`, then the
count check. While the transport has not answered, the write stays outstanding (R153). -/
def execSend (s : State) : Result :=
  if s.trafficReady then
    let wrote := s.emit (.txWrite s.frameOperand)
    match s.draws.ackCount with
    | some count => .next (wrote.finishWrite s.via (countOfBus s.cfg count))
    | none => .next (wrote.setOutstanding (some s.via))
  else
    hold s

/-- TEVENT (R160): accepted in either state, also while a write is outstanding (R73), and without any
effect; the tag is ignored. -/
def execTevent (_tag : Byte) (s : State) : Result := .next (s.complete .ok)

end Sys2Proof.Machine
end

