-- ==== Sys2Proof/Machine/Lifecycle.lean ====
section
/-! DEFINITION. The lifecycle commands of the Relay (spec/41_relay_lifecycle.md). -/

namespace Sys2Proof.Machine

/-- START (R130, R131, R132): refused in `READY` before `tp_connected` is sampled (R176); in `UNINIT` it
enters `READY` with an empty accumulator when the transport is connected, and otherwise returns
`CONFIGURATION_ERROR` and changes nothing. -/
def execStart (s : State) : Result :=
  if s.writeFree then
    match s.st with
    | .ready => .next s.refuse
    | .uninit =>
      if s.draws.connected then .next (((s.setSt .ready).setLen 0).complete .ok)
      else .next (s.complete .configurationError)
  else
    hold s

/-- STOP (R135, R136): `UNINIT` and an empty accumulator, from either state; it never cuts an
outstanding write. -/
def execStop (s : State) : Result :=
  if s.writeFree then .next (((s.setSt .uninit).setLen 0).complete .ok) else hold s

/-- RESTORE (R138): the partial frame is dropped and `st` is kept. -/
def execRestore (s : State) : Result :=
  if s.writeFree then .next ((s.setLen 0).complete .ok) else hold s

end Sys2Proof.Machine
end

