-- ==== Sys2Proof/Machine/Reassembler.lean ====
section
/-! DEFINITION. The commands of the FrameReassembler (spec/40_reassembler.md). -/

namespace Sys2Proof.Machine

/-- FEED_BYTE (R100, R101, R102): held unless the Relay relays; appends `b` at `len`, and a byte that
fills the accumulator drains it within the same command. -/
def execFeedByte (b : Byte) (s : State) : Result :=
  if s.trafficReady then
    match s.memWrite s.len b with
    | .error r => .fault r
    | .ok written =>
      let grown := written.setLen (s.len + 1)
      if grown.frameComplete then
        match grown.drain with
        | .error r => .fault r
        | .ok drained => .next (drained.complete .ok)
      else
        .next (grown.complete .ok)
  else
    hold s

/-- RESET (R106): the partial frame is dropped; `st` and the cells are kept. Held only while a write is
outstanding (R175). -/
def execReset (s : State) : Result :=
  if s.writeFree then .next ((s.setLen 0).complete .ok) else hold s

end Sys2Proof.Machine
end

