-- ==== Sys2Proof/Machine/Dispatch.lean ====
section
/-! DEFINITION. One arm per command of spec/opcode_table.json. -/

namespace Sys2Proof.Machine

open Sys2Proof

def exec (i : Instr) (s : State) : Host.Outcome State Fault Refusal :=
  match i with
  | .feedByte b => Sys2Proof.Machine.execFeedByte b s
  | .reset => Sys2Proof.Machine.execReset s
  | .start => Sys2Proof.Machine.execStart s
  | .stop => Sys2Proof.Machine.execStop s
  | .restore => Sys2Proof.Machine.execRestore s
  | .send => Sys2Proof.Machine.execSend s
  | .tevent t => Sys2Proof.Machine.execTevent t s

end Sys2Proof.Machine
end

