-- ==== Sys2Proof/Decode.lean ====
section
/-! DEFINITION. The decoder of command words (spec/30_encoding.md R77 to R83), total over all 65 536
words, and the encoder (R84). -/

namespace Sys2Proof

/-- Why a command word is reserved: the three cases of R80. -/
inductive Reserved where
  /-- `Z != 0`. -/
  | zField
  /-- `OP` is `0x0` or in `0x8`-`0xF`. -/
  | opField
  /-- `OP` is in `0x2`-`0x6` and `IMM8 != 0`. -/
  | immField
deriving DecidableEq, Repr

/-- `OP`, bits `[3:0]` (R77). -/
def opOf (w : Word) : BitVec 4 := w.extractLsb' 0 4

/-- `Z`, bits `[7:4]` (R77). -/
def zOf (w : Word) : BitVec 4 := w.extractLsb' 4 4

/-- `IMM8`, bits `[15:8]`, taken unsigned with no extension, scaling or shift (R77, R79). -/
def immOf (w : Word) : Byte := w.extractLsb' 8 8

/-- A command without operand in the word: `IMM8` must be `0x00` (R77, R80). -/
def plainCommand (w : Word) (i : Instr) : Except Reserved Instr :=
  if immOf w = 0#8 then .ok i else .error .immField

/-- The decoder of R83. -/
def decode (w : Word) : Except Reserved Instr :=
  if zOf w ≠ 0#4 then .error .zField
  else match (opOf w).toNat with
    | 1 => .ok (.feedByte (immOf w))
    | 2 => plainCommand w .reset
    | 3 => plainCommand w .start
    | 4 => plainCommand w .stop
    | 5 => plainCommand w .restore
    | 6 => plainCommand w .send
    | 7 => .ok (.tevent (immOf w))
    | _ => .error .opField

/-- A word of the format of R77 from its `IMM8` and `OP`, with `Z = 0`. -/
def wordOf (imm : Byte) (op : BitVec 4) : Word := imm ++ (0#4 ++ op)

/-- The word of a command (R78, R84). -/
def encode : Instr → Word
  | .feedByte b => wordOf b 1#4
  | .reset => wordOf 0#8 2#4
  | .start => wordOf 0#8 3#4
  | .stop => wordOf 0#8 4#4
  | .restore => wordOf 0#8 5#4
  | .send => wordOf 0#8 6#4
  | .tevent t => wordOf t 7#4

/-- A legal word is one that the decoder reads as a command (R80, R82). -/
def legalWord (w : Word) : Bool :=
  match decode w with
  | .ok _ => true
  | .error _ => false

/-- One row of spec/opcode_table.json: a word belongs to the row when its bits under `mask` are `pattern`. -/
structure TableRow where
  mnemonic : String
  pattern : Word
  mask : Word
deriving DecidableEq, Repr

/-- The rows of spec/opcode_table.json. -/
def opcodeTable : List TableRow :=
  [ ⟨"FEED_BYTE", 0x0001#16, 0x00FF#16⟩,
    ⟨"RESET", 0x0002#16, 0xFFFF#16⟩,
    ⟨"START", 0x0003#16, 0xFFFF#16⟩,
    ⟨"STOP", 0x0004#16, 0xFFFF#16⟩,
    ⟨"RESTORE", 0x0005#16, 0xFFFF#16⟩,
    ⟨"SEND", 0x0006#16, 0xFFFF#16⟩,
    ⟨"TEVENT", 0x0007#16, 0x00FF#16⟩ ]

/-- The table's name of a command. -/
def mnemonicOf : Instr → String
  | .feedByte _ => "FEED_BYTE"
  | .reset => "RESET"
  | .start => "START"
  | .stop => "STOP"
  | .restore => "RESTORE"
  | .send => "SEND"
  | .tevent _ => "TEVENT"

/-- The command that the decoder reads from a table row's bits: a command is always one 16-bit word
(R77), so only bits 15..0 count, and bits from `nbits` up are 0. -/
def decodeTableWord (nbits w : Nat) : Option Instr :=
  match decode (BitVec.ofNat 16 (w % 2 ^ nbits)) with
  | .ok i => some i
  | .error _ => none

end Sys2Proof
end

