-- ==== Sys2Proof/Machine/Ports.lean ====
section
/-! DEFINITION. The block at its ports (spec/30_encoding.md R71 to R76): the ready outputs as functions
of the state, and the output pulses as views of the output history, each port seeing its own
subsequence (spec/20_memory.md R64, R65). -/

namespace Sys2Proof.Machine

open Sys2Proof

/-! ## Ready outputs -/

/-- `rx_ready`: `st = READY` and no write is outstanding (R72). -/
def State.rxReady (s : State) : Bool := s.trafficReady

/-- `fi_ready`: `st = READY` and no write is outstanding (R74). -/
def State.fiReady (s : State) : Bool := s.trafficReady

/-- The event port is always ready (R73). -/
def State.evReady (_s : State) : Bool := true

/-- `cmd_ready` for an offered word: 0 while the command is held (R71). A FEED_BYTE or SEND is held in
`UNINIT` (R101, R151), and every word while a write is outstanding (R153). -/
def State.cmdReady (s : State) (w : Word) : Bool :=
  match decode w with
  | .ok (.feedByte _) => s.trafficReady
  | .ok .send => s.trafficReady
  | _ => s.writeFree

/-! ## Codes on the outputs -/

/-- The encoding of `st` in one bit (R20). -/
def RelayState.code : RelayState → BitVec 1
  | .uninit => 0#1
  | .ready => 1#1

/-- `done_status` (R71, R174). -/
def Status.code : Status → BitVec 2
  | .ok => 0#2
  | .configurationError => 1#2

/-- `err_code` (R76, R174). -/
def ReportCode.code : ReportCode → BitVec 2
  | .shortWriteError => 2#2

/-! ## Output pulses -/

/-- The frame an event delivers to the sink, if it is a `Deliver`. -/
def Event.delivered? : Event → Option Frame
  | .deliver f => some f
  | _ => none

/-- The frame an event writes to the transport, if it is a `TxWrite`. -/
def Event.written? : Event → Option Frame
  | .txWrite f => some f
  | _ => none

/-- `err_code` and `err_info` of an event, if it is a `Report` (R76). -/
def Event.reported? : Event → Option (BitVec 2 × Nat)
  | .report c info => some (c.code, info)
  | _ => none

/-- `done_status` of an event, if it is the status of a command that came by the command port (R71). -/
def Event.done? : Event → Option (BitVec 2)
  | .status .command c => some c.code
  | _ => none

/-- Whether an event can be seen outside the block: all but the status of a command that came by a port
without a done signal (R71, R73; conventions of 95_test_vectors.md). -/
def Event.visible : Event → Bool
  | .status .command _ => true
  | .status _ _ => false
  | _ => true

/-- The frames the sink has received, in order (R64). -/
def delivered (h : List Event) : List Frame := h.filterMap Event.delivered?

/-- The frames written to the stream transport, in order (R64). -/
def written (h : List Event) : List Frame := h.filterMap Event.written?

/-- The pulses of the error report port, in order (R76, R173). -/
def reported (h : List Event) : List (BitVec 2 × Nat) := h.filterMap Event.reported?

/-- The pulses of `done_valid`, in order (R71). -/
def donePulses (h : List Event) : List (BitVec 2) := h.filterMap Event.done?

/-- The values on `fo_data` at the `fo_valid` pulses, in order (R55, R74). -/
def foData (h : List Event) : List Nat := (delivered h).map busOfFrame

/-- The values on `tx_data` at the `tx_valid` pulses, in order (R55, R74). -/
def txData (h : List Event) : List Nat := (written h).map busOfFrame

/-- The part of the output history that can be seen outside the block. -/
def visibleEvents (h : List Event) : List Event := h.filter Event.visible

end Sys2Proof.Machine
end

