-- ==== Sys2Proof/Machine/Sequencer.lean ====
section
/-! DEFINITION. How the environment's beats become commands (spec/30_encoding.md R71 to R74, R87;
spec/20_memory.md R63, R67): one beat at a time, in the environment's order. -/

namespace Sys2Proof.Machine

open Sys2Proof

/-- The command of a beat is accepted: the beat leaves the environment's sequence, and its port and
draws are those of the command being performed. -/
def State.accept (s : State) (via : Port) (draws : Draws) (rest : List Beat) : State :=
  { s with via := via, draws := draws, pending := rest }

/-- The beats after the one just taken. -/
def State.setPending (s : State) (rest : List Beat) : State := { s with pending := rest }

/-- A word on the command port (R71): while `cmd_ready` is 0 it is not taken; a reserved word is refused
(R80); any other is performed. -/
def offerWord (w : Word) (d : Draws) (rest : List Beat) (s : State) : Result :=
  if s.cmdReady w then
    match decode w with
    | .ok i => exec i (s.accept .command d rest)
    | .error _ => .next (s.accept .command d rest).refuse
  else
    hold s

/-- A beat on a dedicated port, exactly its command (R71 to R74): performed when the port is ready. -/
def offerBeat (ready : Bool) (via : Port) (i : Instr) (d : Draws) (rest : List Beat) (s : State) : Result :=
  if ready then exec i (s.accept via d rest) else hold s

/-- A `tx_ack_valid` beat (R153): it completes the SEND whose write is outstanding. With none
outstanding no rule gives it an effect (notes/assumptions/6.md). -/
def offerAck (count : Nat) (rest : List Beat) (s : State) : Result :=
  match s.outstanding with
  | some via => .next ((s.setPending rest).finishWrite via (countOfBus s.cfg count))
  | none => .refused .unsolicitedAck

/-- What the block does with the beat the environment offers. -/
def perform (beat : Beat) (rest : List Beat) (s : State) : Result :=
  match beat.offer with
  | .command w => offerWord w beat.draws rest s
  | .rxByte b => offerBeat s.rxReady .streamReceive (.feedByte b) beat.draws rest s
  | .event t => offerBeat s.evReady .transportEvent (.tevent t) beat.draws rest s
  | .frameIn => offerBeat s.fiReady .frameIn .send beat.draws rest s
  | .ack count => offerAck count rest s

/-- One step: the next beat of the environment, or nothing while none is offered (R187, R191). -/
def stepBeat (s : State) : Result :=
  match s.pending with
  | [] => .next s
  | beat :: rest => perform beat rest s

end Sys2Proof.Machine
end

