-- ==== Sys2Proof/Machine/Step.lean ====
section
/-! DEFINITION. The step of the machine, and how a program's next word is placed. -/

namespace Sys2Proof.Machine

open Sys2Proof

/-- One step of the block: one beat of its environment (R8, R63, R87). -/
def step (s : State) : Host.Outcome State Fault Refusal := stepBeat s

/-- `s` with the command word `w` as the environment's next beat on the command port, with the draws as
they stand (notes/assumptions/2.md). -/
def State.withFetchWord (s : State) (nbits w : Nat) : State :=
  { s with pending := ⟨.command (BitVec.ofNat 16 (w % 2 ^ nbits)), s.draws⟩ :: s.pending }

end Sys2Proof.Machine
end

