-- ==== Sys2Proof/Machine/Assembler.lean ====
section
/-! DEFINITION. The spec's own assembler syntax and pseudo-commands (spec/30_encoding.md R84 to R86):
from a line of text to the beats of the command port that it stands for. -/

namespace Sys2Proof.Machine

open Sys2Proof

/-- One line of R84 to R86, with the environment's draws of its annotation. -/
inductive AsmLine where
  /-- An empty or comment line. -/
  | blank
  | feedB (b : Byte)
  | reset
  | start (connected : Bool)
  | stop
  | restore
  /-- Without a count annotation the transport does not answer within the command (R153). -/
  | send (f : Frame) (count : Option Nat)
  | tevent (t : Byte)
  /-- The pseudo-command `feed` of a chunk (R85, R103). -/
  | feed (chunk : List Byte)
  /-- The pseudo-command `feed.frame` (R86). -/
  | feedFrame (f : Frame)
deriving DecidableEq, Repr

/-- A line's frames hold exactly `N` bytes (R84) and its count fits the acknowledge bus (R150). -/
def AsmLine.wf (p : Params) : AsmLine → Bool
  | .send f none => frameWf p f
  | .send f (some count) => frameWf p f && busWf (cntWidth p) count
  | .feedFrame f => frameWf p f
  | _ => true

/-- The draws of a command that makes none. -/
def noDraws : Draws := { connected := false, fiData := 0, ackCount := none }

/-- The beat of a command on the command port. -/
def commandBeat (i : Instr) (d : Draws) : Beat := ⟨.command (encode i), d⟩

/-- `feed` of a chunk: one `feed.b` for each byte, in order (R85, R103). -/
def feedBeats (chunk : List Byte) : List Beat :=
  chunk.map fun b => commandBeat (.feedByte b) noDraws

/-- The beats that a line stands for, in order. -/
def AsmLine.beats : AsmLine → List Beat
  | .blank => []
  | .feedB b => [commandBeat (.feedByte b) noDraws]
  | .reset => [commandBeat .reset noDraws]
  | .start connected => [commandBeat .start { noDraws with connected := connected }]
  | .stop => [commandBeat .stop noDraws]
  | .restore => [commandBeat .restore noDraws]
  | .send f count => [commandBeat .send { noDraws with fiData := busOfFrame f, ackCount := count }]
  | .tevent t => [commandBeat (.tevent t) noDraws]
  | .feed chunk => feedBeats chunk
  | .feedFrame f => feedBeats f

/-! ## Text -/

/-- The value of a digit, decimal or hexadecimal. -/
def digitValue (c : Char) : Nat :=
  if '0' ≤ c ∧ c ≤ '9' then c.toNat - '0'.toNat
  else if 'a' ≤ c ∧ c ≤ 'f' then c.toNat - 'a'.toNat + 10
  else if 'A' ≤ c ∧ c ≤ 'F' then c.toNat - 'A'.toNat + 10
  else 16

/-- The number that digits of a base spell after a number already read. -/
def readDigits (base : Nat) : Nat → List Char → Option Nat
  | acc, [] => some acc
  | acc, c :: cs => if digitValue c < base then readDigits base (acc * base + digitValue c) cs else none

/-- An integer, decimal or `0x` hexadecimal (R84). -/
def readNat : List Char → Option Nat
  | [] => none
  | ['0', 'x'] => none
  | '0' :: 'x' :: cs => readDigits 16 0 cs
  | cs => readDigits 10 0 cs

/-- An integer in `[0, 255]` (R84). -/
def readByte (cs : List Char) : Option Byte :=
  match readNat cs with
  | some n => if byteWf n then some (BitVec.ofNat 8 n) else none
  | none => none

/-- A list of bytes. -/
def readBytes : List (List Char) → Option (List Byte)
  | [] => some []
  | t :: ts =>
    match readByte t, readBytes ts with
    | some b, some bs => some (b :: bs)
    | _, _ => none

/-- White space, and the commas and brackets of a byte list. -/
def separator (c : Char) : Bool := [' ', '\t', ',', '[', ']'].contains c

/-- The pieces of a text between separators, after the (reversed) beginning of a piece. -/
def pieces : List Char → List Char → List (List Char)
  | [], [] => []
  | cur, [] => [cur.reverse]
  | cur, c :: cs =>
    if separator c then
      match cur with
      | [] => pieces [] cs
      | _ => cur.reverse :: pieces [] cs
    else pieces (c :: cur) cs

/-- What follows `key` in a text that begins with it. -/
def afterKey : List Char → List Char → Option (List Char)
  | [], cs => some cs
  | k :: ks, c :: cs => if k = c then afterKey ks cs else none
  | _ :: _, [] => none

/-- The value of the first annotation `<key><integer>` among the pieces of a comment. -/
def annotation (key : List Char) : List (List Char) → Option Nat
  | [] => none
  | t :: ts =>
    match afterKey key t with
    | some v => readNat v
    | none => annotation key ts

/-- The line of a piece list, given the pieces of its comment. A `start` needs its annotation. -/
def lineOf (comment : List (List Char)) : List (List Char) → Option AsmLine
  | [] => some .blank
  | head :: args =>
    if head = "feed.b".toList then
      match readBytes args with
      | some [b] => some (.feedB b)
      | _ => none
    else if head = "tevent".toList then
      match readBytes args with
      | some [t] => some (.tevent t)
      | _ => none
    else if head = "feed".toList then (readBytes args).map .feed
    else if head = "feed.frame".toList then (readBytes args).map .feedFrame
    else if head = "send".toList then
      (readBytes args).map fun f => .send f (annotation "count=".toList comment)
    else match args with
      | _ :: _ => none
      | [] =>
        if head = "reset".toList then some .reset
        else if head = "stop".toList then some .stop
        else if head = "restore".toList then some .restore
        else if head = "start".toList then
          match annotation "connected=".toList comment with
          | some 0 => some (.start false)
          | some 1 => some (.start true)
          | _ => none
        else none

/-- One line of text: `;` starts a comment, which may hold annotations (R84). -/
def parseLine (text : List Char) : Option AsmLine :=
  let code := text.takeWhile fun c => c != ';'
  let comment := (text.drop code.length).drop 1
  lineOf (pieces [] comment) (pieces [] code)

/-- The beats of a line of text, where the line is well formed for the configuration. -/
def assemble (p : Params) (text : List Char) : Option (List Beat) :=
  match parseLine text with
  | some l => if l.wf p then some l.beats else none
  | none => none

end Sys2Proof.Machine
end

