-- ==== Sys2Proof/Safety.lean ====
section
/-! DEFINITION. The terms in which claims about the block are made: the invariants of spec/10_state.md
section 4, the partial frame, the closed form of spec/40_reassembler.md R104, a finished run (R9), the
environment's duties (spec/70_reset_and_hazards.md R199), and the abstract relay `(st, P)` in which
spec/95_test_vectors.md writes its states. -/

namespace Sys2Proof.Machine

open Sys2Proof

/-! ## Invariants -/

/-- Every frame of an event has exactly `N` bytes (R60), and a report's count is a short one (R172). -/
def Event.wf (p : Params) : Event → Bool
  | .deliver f => frameWf p f
  | .txWrite f => frameWf p f
  | .report .shortWriteError info => shortWrite p info
  | .status _ _ => true

/-- What holds between operations in every state a run reaches: `len` is below `N` (R22), the cells are
canonical and inside the accumulator (R24), the cells below `len` hold bytes (R27), `UNINIT` has an empty
accumulator (R28), a write is outstanding only in `READY` (R136, R153), and every recorded event has
the widths of R60 and R172. -/
abbrev State.Inv (s : State) : Prop :=
  s.len < s.frameSize ∧
  s.buf.wf = true ∧
  (∀ c ∈ s.buf, c.1 < s.frameSize) ∧
  (∀ i < s.len, (s.buf.read i).isSome = true) ∧
  (s.st = .uninit → s.len = 0) ∧
  (s.outstanding.isSome = true → s.st = .ready) ∧
  (∀ e ∈ s.history, e.wf s.cfg = true)

/-- The partial frame held is `P`: `len = |P|` and `buf[i] = P[i]` for every `i < len` (R27). -/
abbrev State.Holds (s : State) (P : List Byte) : Prop :=
  s.len = P.length ∧ ∀ i < P.length, s.buf.read i = P[i]?

/-! ## The closed form of the inbound path -/

/-- The first `floor(|S| / N)` slices of `N` bytes of a byte sequence (R53, R104). -/
def framesOf (p : Params) (S : List Byte) : List Frame :=
  (List.range (S.length / p.frameSize)).map fun j => (S.drop (j * p.frameSize)).take p.frameSize

/-- The last `|S| mod N` bytes of a byte sequence (R104). -/
def restOf (p : Params) (S : List Byte) : List Byte :=
  S.drop (S.length / p.frameSize * p.frameSize)

/-- The command that a beat of the environment requests, if it requests a legal one (R71 to R74, R80). -/
def Beat.command? (b : Beat) : Option Instr :=
  match b.offer with
  | .command w =>
    match decode w with
    | .ok i => some i
    | .error _ => none
  | .rxByte c => some (.feedByte c)
  | .event t => some (.tevent t)
  | .frameIn => some .send
  | .ack _ => none

/-- The port on which a beat arrives, if it is one that requests a command. -/
def Beat.port? (b : Beat) : Option Port :=
  match b.offer with
  | .command _ => some .command
  | .rxByte _ => some .streamReceive
  | .event _ => some .transportEvent
  | .frameIn => some .frameIn
  | .ack _ => none

/-- The byte that a beat feeds, by either port (R72). -/
def Beat.fed? (b : Beat) : Option Byte :=
  match b.command? with
  | some (.feedByte c) => some c
  | _ => none

/-- The bytes that a sequence of beats feeds, in order. -/
def fedBytes (beats : List Beat) : List Byte := beats.filterMap Beat.fed?

/-- A beat of traffic: a FEED_BYTE, a TEVENT, or a SEND that the transport answers within the command. -/
def Beat.isTraffic (b : Beat) : Bool :=
  match b.command? with
  | some (.feedByte _) => true
  | some (.tevent _) => true
  | some .send => b.draws.ackCount.isSome
  | _ => false

/-! ## Runs -/

/-- `k` steps, stopping at the first fault or refusal. -/
def run : Nat → State → Result
  | 0, s => .next s
  | k + 1, s =>
    match step s with
    | .next t => run k t
    | .fault r => .fault r
    | .refused r => .refused r

/-- A run that ends in hold or refuse is not a finished run (R9): every beat has been taken, no write
waits, and the refusal mark is clear. -/
def State.finished (s : State) : Bool :=
  s.pending.isEmpty && s.outstanding.isNone && !s.refused

/-- The environment keeps its duties of R199 with the beat it offers: an acknowledge answers an
outstanding write (item 1), no word is reserved (item 3), and START is offered only in `UNINIT` (item 4). -/
def State.dutiful (s : State) (b : Beat) : Bool :=
  match b.offer with
  | .ack _ => s.outstanding.isSome
  | .command w =>
    legalWord w && !(decide (decode w = .ok .start) && decide (s.st = .ready))
  | _ => true

/-! ## What cannot be told apart -/

/-- `t` is `s` but for stale cells: the cells below `len` read alike (R29). -/
abbrev State.StaleAlike (s t : State) : Prop :=
  t = s.setBuf t.buf ∧ ∀ i < s.len, t.buf.read i = s.buf.read i

/-- An event without the port its command came by. -/
def Event.forgetPort : Event → Event
  | .status _ c => .status .command c
  | e => e

/-- `s` without the ports its commands came by (R71: a dedicated port is an exact alias). -/
def State.forgetPort (s : State) : State :=
  { s with
    via := .command
    outstanding := s.outstanding.map fun _ => .command
    history := s.history.map Event.forgetPort }

/-- `s` with the level `c` on `tp_connected`. -/
def State.withConnected (s : State) (c : Bool) : State :=
  { s with draws := { s.draws with connected := c } }

/-- `s` with the answer `a` of the transport to a write within the command. -/
def State.withAnswer (s : State) (a : Option Nat) : State :=
  { s with draws := { s.draws with ackCount := a } }

/-! ## The abstract relay -/

/-- The abstract state `(st, P)` of spec/95_test_vectors.md: the Relay state and the partial frame. -/
structure Abstract where
  st : RelayState
  held : List Byte
deriving DecidableEq, Repr

/-- What a command does to the abstract state, and the outputs it emits before its status, when no write
is outstanding, the transport answers a write with `count` and reports `connected`; none where the
command is held or refused (the table of R181). -/
def Abstract.perform (p : Params) (a : Abstract) (connected : Bool) (fi : Frame) (count : Nat) :
    Instr → Option (Abstract × List Event × Status)
  | .feedByte b =>
    match a.st with
    | .uninit => none
    | .ready =>
      if (a.held ++ [b]).length = p.frameSize then
        some (⟨.ready, []⟩, [.deliver (a.held ++ [b])], .ok)
      else
        some (⟨.ready, a.held ++ [b]⟩, [], .ok)
  | .reset => some (⟨a.st, []⟩, [], .ok)
  | .start =>
    match a.st, connected with
    | .ready, _ => none
    | .uninit, true => some (⟨.ready, []⟩, [], .ok)
    | .uninit, false => some (a, [], .configurationError)
  | .stop => some (⟨.uninit, []⟩, [], .ok)
  | .restore => some (⟨a.st, []⟩, [], .ok)
  | .send =>
    match a.st with
    | .uninit => none
    | .ready =>
      if count < p.frameSize then
        some (a, [.txWrite fi, .report .shortWriteError count], .ok)
      else
        some (a, [.txWrite fi], .ok)
  | .tevent _ => some (a, [], .ok)

end Sys2Proof.Machine
end

