-- ==== Sys2Proof/Certificates/Slice0/Obligations.lean ====
section
/-! DEFINITION. The statements about the block, from the numbered rules of spec/. A clause that is the
model's own choice is named so in the statement's docstring, with its assumption log entry. -/

open Sys2Proof Sys2Proof.Machine

/-! ## Encoding -/

/-- R83: decode and encode agree, in both directions, for every command and every word. -/
def Obligations.DecodeEncodeAgree : Prop :=
  (∀ i : Instr, decode (encode i) = .ok i) ∧
  (∀ (w : Word) (i : Instr), decode w = .ok i → encode i = w)

/-- R80: the reserved words, in the fields of R77 read as numbers from the word's value: `OP` is the word
mod 16, `Z` the next four bits, `IMM8` the upper byte. -/
def Obligations.ReservedWordsAreThoseOfTheRule : Prop :=
  ∀ w : Word, legalWord w = false ↔
    (w.toNat % 16 = 0 ∨ 8 ≤ w.toNat % 16) ∨
    w.toNat / 16 % 16 ≠ 0 ∨
    ((2 ≤ w.toNat % 16 ∧ w.toNat % 16 ≤ 6) ∧ w.toNat / 256 ≠ 0)

/-- R82: 256 FEED_BYTE words, 256 TEVENT words and one word for each other command: 517 legal words;
every other word is reserved. -/
def Obligations.LegalWordsAre517 : Prop :=
  ∃ feeds tevents others : List Word,
    feeds.length = 256 ∧ tevents.length = 256 ∧
    (feeds ++ tevents ++ others).Nodup ∧ (feeds ++ tevents ++ others).length = 517 ∧
    (∀ w ∈ feeds, ∃ b, decode w = .ok (.feedByte b)) ∧
    (∀ w ∈ tevents, ∃ t, decode w = .ok (.tevent t)) ∧
    others.map decode = [.ok .reset, .ok .start, .ok .stop, .ok .restore, .ok .send] ∧
    ∀ w : Word, legalWord w = true ↔ w ∈ feeds ++ tevents ++ others

/-- R78: the decoder reads a row's command exactly from the words that match the row's pattern under
its mask, and no word matches two rows. -/
def Obligations.DecoderAgreesWithOpcodeTable : Prop :=
  (∀ (w : Word) (m : String),
    (∃ i, decode w = .ok i ∧ mnemonicOf i = m) ↔
      ∃ r ∈ opcodeTable, r.mnemonic = m ∧ w &&& r.mask = r.pattern) ∧
  opcodeTable.Pairwise fun r q => ∀ w : Word, ¬ (w &&& r.mask = r.pattern ∧ w &&& q.mask = q.pattern)

/-- The words of vectors V37 to V46 of 95_test_vectors.md, each written out from the encoding. -/
def Obligations.VectorWordsDecode : Prop :=
  decode 0b0000000000000000#16 = .error .opField ∧
  decode 0b0000000000010001#16 = .error .zField ∧
  decode 0b0000000100000010#16 = .error .immField ∧
  decode 0b0000000000001000#16 = .error .opField ∧
  decode 0b0000111100001111#16 = .error .opField ∧
  decode 0b0000000011110001#16 = .error .zField ∧
  decode 0b0000000000000001#16 = .ok (.feedByte 0x00) ∧
  decode 0b1111111100000001#16 = .ok (.feedByte 0xFF) ∧
  decode 0b1010101100000111#16 = .ok (.tevent 0xAB) ∧
  decode 0b0000000000000010#16 = .ok .reset ∧
  decode 0b0000000000000011#16 = .ok .start ∧
  decode 0b0000000000000100#16 = .ok .stop ∧
  decode 0b0000000000000101#16 = .ok .restore ∧
  decode 0b0000000000000110#16 = .ok .send

/-- R85 and R86: a chunk and a whole frame expand to one FEED_BYTE word for each byte, in order, and an
empty chunk to nothing; the word of a byte is `(<byte> << 8) | 0x1` (R84). -/
def Obligations.FeedExpandsToItsBytes : Prop :=
  (AsmLine.feed []).beats = [] ∧
  (∀ (b : Byte) (chunk : List Byte),
    (AsmLine.feed (b :: chunk)).beats = (AsmLine.feedB b).beats ++ (AsmLine.feed chunk).beats) ∧
  (∀ f : Frame, (AsmLine.feedFrame f).beats = (AsmLine.feed f).beats) ∧
  (∀ b : Byte, (AsmLine.feedB b).beats.map Beat.offer =
    [.command ((b.zeroExtend 16 <<< 8) ||| 0x1#16)])

/-! ## Steps -/

/-- R71, R87: a step performs the decoded command of the next word on the command port, after taking
the beat (its draws, its port, the rest of the sequence); where `cmd_ready` is 0 nothing changes. A
legal word finds `cmd_ready = 1` exactly when no write is outstanding and, for FEED_BYTE and SEND,
`st = READY`. Two clauses are the model's choice: that a held command leaves the state as it is
(notes/assumptions/3.md), and that while a write is outstanding `cmd_ready` is 0 for every word,
TEVENT's too, as R153 says and R175 does not (notes/assumptions/5.md). -/
def Obligations.StepRunsDecodedCommand : Prop :=
  ∀ (s : State) (w : Word) (d : Draws) (rest : List Beat) (i : Instr),
    s.pending = ⟨.command w, d⟩ :: rest → decode w = .ok i →
    (s.cmdReady w = true ↔
      s.outstanding = none ∧ ((i = .send ∨ ∃ b, i = .feedByte b) → s.st = .ready)) ∧
    (s.cmdReady w = true → step s = exec i { s with via := .command, draws := d, pending := rest }) ∧
    (s.cmdReady w = false → step s = .next s)

/-- R72, R73, R74: a beat on a dedicated port is exactly its command when the port is ready: the stream
receive and frame input ports when `st = READY` and no write is outstanding, the event port always.
That a beat on a port that is not ready leaves the state as it is, is the model's form of hold
(notes/assumptions/3.md). -/
def Obligations.DedicatedPortRunsItsCommand : Prop :=
  ∀ (s : State) (d : Draws) (rest : List Beat),
    (∀ b, s.pending = ⟨.rxByte b, d⟩ :: rest → s.st = .ready → s.outstanding = none →
      step s = exec (.feedByte b) { s with via := .streamReceive, draws := d, pending := rest }) ∧
    (s.pending = ⟨.frameIn, d⟩ :: rest → s.st = .ready → s.outstanding = none →
      step s = exec .send { s with via := .frameIn, draws := d, pending := rest }) ∧
    (∀ t, s.pending = ⟨.event t, d⟩ :: rest →
      step s = exec (.tevent t) { s with via := .transportEvent, draws := d, pending := rest }) ∧
    (∀ b, s.pending = ⟨.rxByte b, d⟩ :: rest → (s.st = .uninit ∨ s.outstanding ≠ none) →
      step s = .next s) ∧
    (s.pending = ⟨.frameIn, d⟩ :: rest → (s.st = .uninit ∨ s.outstanding ≠ none) →
      step s = .next s)

/-- R71: a dedicated port is an exact alias of its command: the port by which a command comes changes
nothing but the record of that port. (That the history keeps the port is the model's choice,
notes/assumptions/7.md.) -/
def Obligations.PortChangesOnlyItsRecord : Prop :=
  ∀ (i : Instr) (s : State),
    exec i s.forgetPort =
      match exec i s with
      | .next t => .next t.forgetPort
      | .fault r => .fault r
      | .refused r => .refused r

/-- R187, R191: while no command is offered nothing changes; right after power-on the block runs nothing
by itself, for any number of steps. That an idle step answers the unchanged state is the model's choice
(notes/assumptions/11.md), and that nothing is offered right after power-on is the model's reset value of
the environment's sequence (notes/assumptions/2.md). -/
def Obligations.IdleBlockKeepsItsState : Prop :=
  (∀ s : State, s.pending = [] → step s = .next s) ∧
  (∀ (p : Params) (k : Nat), run k (State.powerOn p) = .next (State.powerOn p))

/-- R80: a reserved word is refused: the refusal mark is set, the index moves on (R87), no other state
of the block changes and nothing is emitted. While a write is outstanding the word is held instead and
nothing changes: this clause is the model's choice, following R153 where R175 says otherwise
(notes/assumptions/5.md) and with the model's form of hold (notes/assumptions/3.md). -/
def Obligations.ReservedWordIsRefused : Prop :=
  ∀ (s : State) (w : Word) (d : Draws) (rest : List Beat),
    s.pending = ⟨.command w, d⟩ :: rest → legalWord w = false →
    (s.outstanding = none →
      step s = .next { s with
        refused := true, index := s.index + 1, via := .command, draws := d, pending := rest }) ∧
    (s.outstanding ≠ none → step s = .next s)

/-! ## FEED_BYTE -/

/-- R100: a FEED_BYTE in `READY` that does not fill the accumulator stores its byte at `len`, adds one to
`len` and returns OK; every other cell and every other element stays as it is. -/
def Obligations.FeedByteStoresAtLength : Prop :=
  ∀ (b : Byte) (s : State),
    s.st = .ready → s.outstanding = none → s.len + 1 < s.frameSize →
    ∃ m, exec (.feedByte b) s = .next { s with
        len := s.len + 1, buf := m
        history := s.history ++ [.status s.via .ok], index := s.index + 1 } ∧
      m.read s.len = some b ∧ ∀ a, a ≠ s.len → m.read a = s.buf.read a

/-- R100, R102: a FEED_BYTE in `READY` that fills the accumulator stores its byte at `len`, delivers the
partial frame with the byte appended, and leaves `len = 0`, all within the command. -/
def Obligations.FeedByteDeliversFullFrame : Prop :=
  ∀ (b : Byte) (s : State) (P : List Byte),
    s.st = .ready → s.outstanding = none → s.Holds P → P.length + 1 = s.frameSize →
    ∃ m, exec (.feedByte b) s = .next { s with
        len := 0, buf := m
        history := s.history ++ [.deliver (P ++ [b]), .status s.via .ok], index := s.index + 1 } ∧
      m.read s.len = some b ∧ ∀ a, a ≠ s.len → m.read a = s.buf.read a

/-- R101, R151: FEED_BYTE and SEND in `UNINIT` are held and not performed. (That the held state is the
unchanged next state is the model's form of hold, notes/assumptions/3.md.) -/
def Obligations.TrafficIsHeldInUninit : Prop :=
  ∀ (b : Byte) (s : State), s.st = .uninit →
    exec (.feedByte b) s = .next s ∧ exec .send s = .next s

/-- R153: while a write is outstanding every command but TEVENT is held. (The form of hold is the
model's, notes/assumptions/3.md.) -/
def Obligations.OutstandingWriteHoldsCommands : Prop :=
  ∀ (i : Instr) (s : State), s.outstanding ≠ none → (∀ t, i ≠ .tevent t) → exec i s = .next s

/-- R24, R25, R179: the only faults are FEED_BYTE's, and they are exactly: a write beyond the last cell,
and a drain over a cell that holds no value (the first such cell is named). The fault of a cell that does
not exist is the model's (notes/assumptions/9.md). -/
def Obligations.FaultsAreMissingCells : Prop :=
  ∀ (i : Instr) (s : State) (r : Fault),
    exec i s = .fault r ↔
      (∃ b, i = .feedByte b) ∧ s.st = .ready ∧ s.outstanding = none ∧
      ((s.frameSize ≤ s.len ∧ r = .noSuchCell s.len) ∨
       (s.len + 1 = s.frameSize ∧ ∃ j < s.len, r = .unwrittenCell j ∧ s.buf.read j = none ∧
          ∀ k < j, s.buf.read k ≠ none))

/-- R72, R101: `rx_ready` is 1 exactly when the state is one in which a FEED_BYTE is performed. That a
FEED_BYTE is held exactly where it answers the unchanged state is the model's form of hold
(notes/assumptions/3.md). -/
def Obligations.ReceiveReadyMeansPerformed : Prop :=
  ∀ (b : Byte) (s : State), s.Inv →
    (s.rxReady = false ↔ exec (.feedByte b) s = .next s) ∧
    (s.rxReady = true ↔ ∃ t, exec (.feedByte b) s = .next t ∧ t.index = s.index + 1)

/-! ## RESET, START, STOP, RESTORE -/

/-- R106: RESET sets `len` to 0 and returns OK, in both states; nothing else changes. -/
def Obligations.ResetEmptiesTheLength : Prop :=
  encode .reset = 0x0002#16 ∧
  ∀ s : State, s.outstanding = none →
    exec .reset s = .next { s with
      len := 0, history := s.history ++ [.status s.via .ok], index := s.index + 1 }

/-- R138: RESTORE empties the accumulator's length, keeps the Relay state and returns OK; it is exactly
RESET. -/
def Obligations.RestoreIsExactlyReset : Prop :=
  encode .restore = 0x0005#16 ∧
  (∀ s : State, s.outstanding = none →
    exec .restore s = .next { s with
      len := 0, history := s.history ++ [.status s.via .ok], index := s.index + 1 }) ∧
  (∀ s : State, exec .restore s = exec .reset s)

/-- R130, R132: START in `UNINIT` with the transport connected enters `READY` with `len = 0` and returns
OK; with the transport not connected it returns CONFIGURATION_ERROR and changes no state element. -/
def Obligations.StartSamplesConnected : Prop :=
  encode .start = 0x0003#16 ∧
  ∀ s : State, s.st = .uninit → s.outstanding = none →
    (s.draws.connected = true →
      exec .start s = .next { s with
        st := .ready, len := 0
        history := s.history ++ [.status s.via .ok], index := s.index + 1 }) ∧
    (s.draws.connected = false →
      exec .start s = .next { s with
        history := s.history ++ [.status s.via .configurationError], index := s.index + 1 })

/-- R131: START while `st = READY` is refused: the refusal mark is set and nothing else changes (but the
index, R87). -/
def Obligations.StartInReadyIsRefused : Prop :=
  ∀ s : State, s.st = .ready → s.outstanding = none →
    exec .start s = .next { s with refused := true, index := s.index + 1 }

/-- R135: STOP enters `UNINIT` with `len = 0` and returns OK, from either state; nothing else changes. -/
def Obligations.StopEntersUninit : Prop :=
  encode .stop = 0x0004#16 ∧
  ∀ s : State, s.outstanding = none →
    exec .stop s = .next { s with
      st := .uninit, len := 0
      history := s.history ++ [.status s.via .ok], index := s.index + 1 }

/-- R62, R106, R135, R138: RESET, STOP and RESTORE are idempotent on the block's elements. -/
def Obligations.LengthResetsAreIdempotent : Prop :=
  ∀ (i : Instr) (s t : State), (i = .reset ∨ i = .stop ∨ i = .restore) → exec i s = .next t →
    ∃ u, exec i t = .next u ∧ u.st = t.st ∧ u.len = t.len ∧ u.buf = t.buf ∧
      u.outstanding = t.outstanding ∧ u.refused = t.refused ∧
      delivered u.history = delivered t.history

/-! ## SEND and TEVENT -/

/-- R150, R155: an answered SEND in `READY` writes the frame once, then reports a count below `N` exactly
once with that count, and nothing for a count of `N` or more, and returns OK; the Relay state, the
length and the accumulator are as before, whatever the count. -/
def Obligations.SendWritesAndChecksCount : Prop :=
  encode .send = 0x0006#16 ∧
  ∀ (s : State) (c : Nat),
    s.st = .ready → s.outstanding = none → s.draws.ackCount = some c →
    (countOfBus s.cfg c < s.frameSize →
      exec .send s = .next { s with
        history := s.history ++ [.txWrite (frameOfBus s.cfg s.draws.fiData),
          .report .shortWriteError (countOfBus s.cfg c), .status s.via .ok]
        index := s.index + 1 }) ∧
    (s.frameSize ≤ countOfBus s.cfg c →
      exec .send s = .next { s with
        history := s.history ++ [.txWrite (frameOfBus s.cfg s.draws.fiData), .status s.via .ok]
        index := s.index + 1 })

/-- R153: a SEND whose transport does not answer writes its frame and waits: the write is outstanding,
and the SEND has not completed (the model's form of waiting, notes/assumptions/5.md). -/
def Obligations.UnansweredSendWaits : Prop :=
  ∀ s : State, s.st = .ready → s.outstanding = none → s.draws.ackCount = none →
    exec .send s = .next { s with
      history := s.history ++ [.txWrite (frameOfBus s.cfg s.draws.fiData)]
      outstanding := some s.via }

/-- R153: the acknowledge completes the waiting SEND: the count check of R150, status OK, and no write
is outstanding any more. -/
def Obligations.AcknowledgeCompletesWaitingSend : Prop :=
  ∀ (s : State) (v : Port) (c : Nat) (d : Draws) (rest : List Beat),
    s.outstanding = some v → s.pending = ⟨.ack c, d⟩ :: rest →
    (countOfBus s.cfg c < s.frameSize →
      step s = .next { s with
        history := s.history ++ [.report .shortWriteError (countOfBus s.cfg c), .status v .ok]
        outstanding := none, index := s.index + 1, pending := rest }) ∧
    (s.frameSize ≤ countOfBus s.cfg c →
      step s = .next { s with
        history := s.history ++ [.status v .ok]
        outstanding := none, index := s.index + 1, pending := rest })

/-- R8, R150, R153, R73: SEND is one atomic command: a SEND answered late, with any transport events
taken in between, leaves the same visible outputs and the same block state as one answered at once
(that the model lets the answer come late is notes/assumptions/5.md). That the status of a command of the
event port is no visible output is the model's reading too (notes/assumptions/7.md). -/
def Obligations.LateAnswerEqualsImmediateAnswer : Prop :=
  ∀ (s : State) (c : Nat) (events : List (Byte × Draws)) (d : Draws) (rest : List Beat),
    s.st = .ready → s.outstanding = none →
    s.pending = events.map (fun e => ⟨.event e.1, e.2⟩) ++ ⟨.ack c, d⟩ :: rest →
    ∃ w t u, exec .send (s.withAnswer none) = .next w ∧
      run (events.length + 1) w = .next t ∧
      exec .send (s.withAnswer (some c)) = .next u ∧
      visibleEvents t.history = visibleEvents u.history ∧
      t.st = u.st ∧ t.len = u.len ∧ t.buf = u.buf ∧ t.outstanding = u.outstanding ∧
      t.refused = u.refused ∧ t.index = u.index + events.length ∧ t.pending = rest

/-- R156: SEND leaves `st`, `len` and `buf` unchanged, whatever the count; a short write leaves the
Relay in `READY`. -/
def Obligations.SendKeepsReassemblyState : Prop :=
  ∀ s t : State, exec .send s = .next t →
    t.st = s.st ∧ t.len = s.len ∧ t.buf = s.buf ∧
    (reported t.history ≠ reported s.history → t.st = .ready)

/-- R154, R157: a transport that keeps writing short gives one report for each SEND, exactly one write
for each SEND, and no other effect on the block. -/
def Obligations.RepeatedShortWritesOnlyReport : Prop :=
  ∀ (s : State) (bs rest : List Beat),
    s.st = .ready → s.outstanding = none → s.pending = bs ++ rest →
    (∀ b ∈ bs, b.command? = some .send ∧
      ∃ c, b.draws.ackCount = some c ∧ countOfBus s.cfg c < s.frameSize) →
    ∃ t, run bs.length s = .next t ∧
      reported t.history = reported s.history ++
        bs.map (fun b => (2#2, countOfBus s.cfg (b.draws.ackCount.getD 0))) ∧
      written t.history = written s.history ++ bs.map (fun b => frameOfBus s.cfg b.draws.fiData) ∧
      delivered t.history = delivered s.history ∧
      t.st = s.st ∧ t.len = s.len ∧ t.buf = s.buf ∧ t.outstanding = none ∧
      t.refused = s.refused ∧ t.pending = rest

/-- R160: TEVENT returns OK and has no other effect, for every tag, in either state, also while a write
is outstanding (R73). -/
def Obligations.TeventHasNoEffect : Prop :=
  (∀ t : Byte, encode (.tevent t) = (t.zeroExtend 16 <<< 8) ||| 0x7#16) ∧
  ∀ (t : Byte) (s : State),
    exec (.tevent t) s = .next { s with
      history := s.history ++ [.status s.via .ok], index := s.index + 1 }

/-- R161: only START reads `tp_connected`: for every other command a change of that level changes no
outcome and no element of the next state. -/
def Obligations.OnlyStartReadsConnected : Prop :=
  ∀ (i : Instr) (s : State) (c : Bool), i ≠ .start →
    exec i (s.withConnected c) =
      match exec i s with
      | .next t => .next (t.withConnected c)
      | .fault r => .fault r
      | .refused r => .refused r

/-! ## Buses and widths -/

/-- R55: frame byte `k` occupies bits `[8k+7 : 8k]` of a frame bus, on the input and on the output
buses; unpacking and packing are inverse on frames of `N` bytes. The values on `fo_data` are the frames
delivered and those on `tx_data` the frames written, packed so, in order (R74). -/
def Obligations.FrameBusPacking : Prop :=
  ∀ p : Params,
    (∀ (v k : Nat), k < p.frameSize →
      (frameOfBus p v)[k]? = some (BitVec.ofNat 8 (v / 2 ^ (8 * k)))) ∧
    (∀ (f : Frame) (k : Nat) (b : Byte), f[k]? = some b →
      busOfFrame f / 2 ^ (8 * k) % 256 = b.toNat) ∧
    (∀ f : Frame, f.length = p.frameSize →
      busOfFrame f < 2 ^ frameWidth p ∧ frameOfBus p (busOfFrame f) = f) ∧
    (∀ v : Nat, busOfFrame (frameOfBus p v) = v % 2 ^ frameWidth p) ∧
    (∀ h : List Event,
      foData h = (delivered h).map busOfFrame ∧ txData h = (written h).map busOfFrame) ∧
    (∀ (h : List Event) (j k v : Nat) (f : Frame) (b : Byte), f[k]? = some b →
      ((delivered h)[j]? = some f → (foData h)[j]? = some v → v / 2 ^ (8 * k) % 256 = b.toNat) ∧
      ((written h)[j]? = some f → (txData h)[j]? = some v → v / 2 ^ (8 * k) % 256 = b.toNat))

/-- R23 and the widths table of 00_scope.md: `LEN_W` bits hold `[0, N-1]`, 6 bits for `N = 64`; `CNT_W`
bits hold `[0, N]`, 7 bits for `N = 64`; neither width is larger than needed, but that `LEN_W` is 1 for
`N = 1`; `FRAME_W` is `8 N`, 512 bits for `N = 64`. -/
def Obligations.WidthsHoldTheirRanges : Prop :=
  (∀ (p : Params) (n : Nat), n < p.frameSize → n < 2 ^ lenWidth p) ∧
  (∀ (p : Params) (n : Nat), n ≤ p.frameSize → n < 2 ^ cntWidth p) ∧
  (∀ p : Params, 2 ≤ p.frameSize → 2 ^ (lenWidth p - 1) < p.frameSize) ∧
  (∀ p : Params, p.frameSize = 1 → lenWidth p = 1) ∧
  (∀ p : Params, 1 ≤ cntWidth p ∧ 2 ^ (cntWidth p - 1) < p.frameSize + 1) ∧
  (∀ p : Params, frameWidth p = 8 * p.frameSize) ∧
  lenWidth Params.standard = 6 ∧ cntWidth Params.standard = 7 ∧ frameWidth Params.standard = 512

/-! ## Outputs -/

/-- R174, R71, R76, R20: `done_status` is 0 for OK and 1 for CONFIGURATION_ERROR, `err_code` is 2 for a
short write, no other value is ever driven, and `st` is 0 for `UNINIT` and 1 for `READY`; so a START on
the command port in `UNINIT` pulses 0 and leaves `st` at 1 when the transport is connected, and pulses 1
and leaves `st` at 0 when it is not. (That the pulses are read off the history, and which statuses of it
have one, is notes/assumptions/7.md.) -/
def Obligations.CodesOnTheOutputs : Prop :=
  (RelayState.uninit.code = 0#1 ∧ RelayState.ready.code = 1#1) ∧
  (Status.ok.code = 0#2 ∧ Status.configurationError.code = 1#2) ∧
  ReportCode.shortWriteError.code = 2#2 ∧
  (∀ h : List Event, (∀ d ∈ donePulses h, d = 0#2 ∨ d = 1#2) ∧ ∀ r ∈ reported h, r.1 = 2#2) ∧
  (∀ s : State, s.st = .uninit → s.outstanding = none → s.via = .command →
    ∃ t, exec .start s = .next t ∧
      donePulses t.history =
        donePulses s.history ++ [if s.draws.connected then 0#2 else 1#2] ∧
      t.st.code = if s.draws.connected then 1#1 else 0#1)

/-- R71, R74, R76, R64: the pulses of each output port are the port's own events of the history, in order:
a `Deliver` is a pulse of `fo_valid`, a `TxWrite` of `tx_valid`, a `Report` of `err_valid`, and a status of
the command port of `done_valid`; each is a pulse of no other port, and a status of another port of none
(the port tag is the model's, notes/assumptions/7.md). -/
def Obligations.OutputPortsShowTheHistory : Prop :=
  (∀ h k : List Event,
    foData (h ++ k) = foData h ++ foData k ∧ txData (h ++ k) = txData h ++ txData k ∧
    reported (h ++ k) = reported h ++ reported k ∧
    donePulses (h ++ k) = donePulses h ++ donePulses k) ∧
  (∀ f : Frame,
    foData [.deliver f] = [busOfFrame f] ∧ txData [.deliver f] = [] ∧
    reported [.deliver f] = [] ∧ donePulses [.deliver f] = []) ∧
  (∀ f : Frame,
    foData [.txWrite f] = [] ∧ txData [.txWrite f] = [busOfFrame f] ∧
    reported [.txWrite f] = [] ∧ donePulses [.txWrite f] = []) ∧
  (∀ n : Nat,
    foData [.report .shortWriteError n] = [] ∧ txData [.report .shortWriteError n] = [] ∧
    reported [.report .shortWriteError n] = [(2#2, n)] ∧
    donePulses [.report .shortWriteError n] = []) ∧
  (∀ (v : Port) (c : Status),
    foData [.status v c] = [] ∧ txData [.status v c] = [] ∧ reported [.status v c] = [] ∧
    donePulses [.status v c] =
      if v = .command then [if c = .configurationError then 1#2 else 0#2] else [])

/-! ## Reset and invariants -/

/-- R190: power-on reset: `UNINIT`, `len = 0`, no cell holds a value, no write outstanding, an empty
history and a clear refusal mark, for every configuration; the hardware's own has `N = 64` (R6). The
values of the environment's inputs are not stated: they are the model's (notes/assumptions/2.md). -/
def Obligations.PowerOnState : Prop :=
  (∀ p : Params,
    (State.powerOn p).cfg = p ∧ (State.powerOn p).st = .uninit ∧ (State.powerOn p).len = 0 ∧
    (∀ i, (State.powerOn p).buf.read i = none) ∧ (State.powerOn p).outstanding = none ∧
    (State.powerOn p).history = [] ∧ (State.powerOn p).refused = false) ∧
  State.reset = State.powerOn Params.standard ∧ State.reset.frameSize = 64

/-- The invariants R22, R24, R27, R28 (and R60, R136, R172 on the model's fields) hold at power-on, for
every configuration. -/
def Obligations.PowerOnMeetsInvariant : Prop :=
  ∀ p : Params, (State.powerOn p).Inv

/-- R22, R26, R27, R28: every step keeps the invariants: `len` below `N`, the accumulator canonical and
inside its `N` cells, every cell below `len` holding a byte, `UNINIT` with an empty accumulator, a
write outstanding only in `READY`, and every event of the history of its width. -/
def Obligations.StepKeepsInvariant : Prop :=
  ∀ s t : State, s.Inv → step s = .next t → t.Inv

/-- R9, R27, R179: from a state with the invariants no command faults or stops: each answers a next
state; a step stops only on an acknowledge that answers no outstanding write (the model's choice,
notes/assumptions/6.md). -/
def Obligations.NoCommandStopsUnderInvariant : Prop :=
  ∀ s : State, s.Inv →
    (∀ i : Instr, ∃ t, exec i s = .next t) ∧
    ((∃ t, step s = .next t) ∨
      (step s = .refused .unsolicitedAck ∧ s.outstanding = none ∧
        ∃ c d rest, s.pending = ⟨.ack c, d⟩ :: rest))

/-- R34, R32: a step only appends to the output history and never changes the configuration; the index
of the next command never falls (R87). -/
def Obligations.HistoryOnlyGrows : Prop :=
  ∀ s t : State, step s = .next t →
    (∃ es, t.history = s.history ++ es) ∧ t.cfg = s.cfg ∧
    s.index ≤ t.index ∧ t.index ≤ s.index + 1

/-- R35: the refusal mark is clear at power-on; a reserved word and a START in `READY` set it, nothing
else sets it, and nothing clears it. That neither sets it while a write is outstanding, because the
command port then holds every word, is the model's choice: R153 against R175 (notes/assumptions/5.md). -/
def Obligations.RefusalMarkOnlyByRefusal : Prop :=
  (∀ p : Params, (State.powerOn p).refused = false) ∧
  (∀ s t : State, step s = .next t → s.refused = true → t.refused = true) ∧
  (∀ s t : State, step s = .next t → s.refused = false →
    (t.refused = true ↔
      s.outstanding = none ∧ ∃ w d rest, s.pending = ⟨.command w, d⟩ :: rest ∧
        (legalWord w = false ∨ (decode w = .ok .start ∧ s.st = .ready))))

/-- R181: only a successful START enters `READY`, and only STOP leaves it. -/
def Obligations.OnlyStartAndStopMoveTheRelay : Prop :=
  ∀ (i : Instr) (s t : State), exec i s = .next t → t.st ≠ s.st →
    (i = .start ∧ s.st = .uninit ∧ s.draws.connected = true ∧ t.st = .ready) ∨
    (i = .stop ∧ s.st = .ready ∧ t.st = .uninit)

/-- R170, R175, R176: CONFIGURATION_ERROR comes only from a START in `UNINIT` that found the transport
not connected, a report only from a SEND that the transport answered with a count below `N`, and no
command raises more than one error. -/
def Obligations.ErrorsComeFromTheirCommands : Prop :=
  ∀ (i : Instr) (s t : State), exec i s = .next t →
    ∃ es, t.history = s.history ++ es ∧
      (∀ v, .status v .configurationError ∈ es →
        i = .start ∧ s.st = .uninit ∧ s.draws.connected = false) ∧
      (∀ c n, .report c n ∈ es →
        i = .send ∧ n < s.frameSize ∧
          ∃ a, s.draws.ackCount = some a ∧ n = countOfBus s.cfg a) ∧
      (es.filter fun e => match e with
        | .report _ _ => true
        | .status _ .configurationError => true
        | _ => false).length ≤ 1

/-- R202: a hold of traffic in `UNINIT` is lifted only by a START that found the transport connected, and
a hold by an outstanding write only by an acknowledge. -/
def Obligations.HoldsAreLiftedOnlyByTheirEvents : Prop :=
  (∀ (i : Instr) (s t : State), exec i s = .next t → s.outstanding = none →
    s.trafficReady = false → t.trafficReady = true →
      i = .start ∧ s.st = .uninit ∧ s.draws.connected = true) ∧
  (∀ s t : State, step s = .next t → s.outstanding ≠ none → t.outstanding = none →
    ∃ c d rest, s.pending = ⟨.ack c, d⟩ :: rest)

/-- R203, R175: a command that the environment offers is taken by the very next step unless it is held,
and it is held exactly while a write is outstanding (but not on the event port) or, for FEED_BYTE and
SEND, in `UNINIT`. Four clauses are the model's choice: that a held beat leaves the state as it is
(notes/assumptions/3.md), that a TEVENT on the command port is held while a write is outstanding, as R153
says and R175 does not, and that a SEND that is not answered is taken and waits (both
notes/assumptions/5.md), and that the step is the very next one (notes/assumptions/14.md). -/
def Obligations.OfferedCommandIsTakenUnlessHeld : Prop :=
  ∀ (s : State) (b : Beat) (rest : List Beat) (i : Instr) (v : Port),
    s.Inv → s.pending = b :: rest → b.command? = some i → b.port? = some v →
    ((s.outstanding ≠ none ∧ v ≠ .transportEvent) ∨
        ((i = .send ∨ ∃ c, i = .feedByte c) ∧ s.st = .uninit) → step s = .next s) ∧
    (¬ ((s.outstanding ≠ none ∧ v ≠ .transportEvent) ∨
        ((i = .send ∨ ∃ c, i = .feedByte c) ∧ s.st = .uninit)) →
      ∃ t, step s = .next t ∧ t.pending = rest ∧
        (t.index = s.index + 1 ∨
          (i = .send ∧ b.draws.ackCount = none ∧ t.outstanding = some v ∧ t.index = s.index)))

/-- R199: while the environment keeps its duties with the beat it offers, a step goes on and the refusal
mark stays clear. (Where the beat is held the step is the model's form of hold, notes/assumptions/3.md.) -/
def Obligations.DutifulEnvironmentIsNeverRefused : Prop :=
  ∀ (s : State) (b : Beat) (rest : List Beat),
    s.Inv → s.refused = false → s.pending = b :: rest → s.dutiful b = true →
    ∃ t, step s = .next t ∧ t.refused = false

/-! ## The inbound path as a whole -/

/-- R104: feeding a chunk `C` in `READY` with a partial frame `P` held and no other command in between
(each byte by either port) delivers exactly `floor((L + k) / N)` frames, frame `j` being bytes
`j*N .. j*N+N-1` of `P ++ C`, and leaves `len = (L + k) mod N` and the last `len` bytes of `P ++ C` in
the accumulator. -/
def Obligations.ChunkClosedForm : Prop :=
  ∀ (s : State) (P C : List Byte) (bs rest : List Beat),
    s.st = .ready → s.outstanding = none → s.Holds P → P.length < s.frameSize →
    bs.map Beat.fed? = C.map some → s.pending = bs ++ rest →
    ∃ t frames, run bs.length s = .next t ∧
      delivered t.history = delivered s.history ++ frames ∧
      frames.length = (s.len + C.length) / s.frameSize ∧
      (∀ j < frames.length,
        frames[j]? = some (((P ++ C).drop (j * s.frameSize)).take s.frameSize)) ∧
      t.len = (s.len + C.length) % s.frameSize ∧
      t.Holds ((P ++ C).drop ((P ++ C).length - t.len)) ∧
      t.st = .ready ∧ t.pending = rest

/-- R105, R162, R109: the frames delivered and the partial frame left depend on nothing but the bytes
fed and their order: two runs of traffic that feed the same bytes, however they are cut into chunks,
by whichever port, and whatever SENDs and TEVENTs stand between them, deliver the same frames and hold
the same partial frame. -/
def Obligations.OnlyTheBytesFedMatter : Prop :=
  ∀ (s₁ s₂ : State) (P : List Byte) (bs₁ bs₂ rest₁ rest₂ : List Beat),
    s₁.cfg = s₂.cfg → s₁.st = .ready → s₂.st = .ready →
    s₁.outstanding = none → s₂.outstanding = none →
    s₁.Holds P → s₂.Holds P → P.length < s₁.frameSize →
    s₁.pending = bs₁ ++ rest₁ → s₂.pending = bs₂ ++ rest₂ →
    (∀ b ∈ bs₁, b.isTraffic = true) → (∀ b ∈ bs₂, b.isTraffic = true) →
    fedBytes bs₁ = fedBytes bs₂ →
    ∃ t₁ t₂ frames Q,
      run bs₁.length s₁ = .next t₁ ∧ run bs₂.length s₂ = .next t₂ ∧
      delivered t₁.history = delivered s₁.history ++ frames ∧
      delivered t₂.history = delivered s₂.history ++ frames ∧
      t₁.Holds Q ∧ t₂.Holds Q ∧ t₁.pending = rest₁ ∧ t₂.pending = rest₂

/-- R107, R139: after RESET, RESTORE, a successful START, or STOP and a successful START, the frames
delivered by any traffic are those of the bytes fed since alone, and fewer than `N` bytes deliver
none. -/
def Obligations.LengthResetForgetsThePartialFrame : Prop :=
  ∀ (s u : State) (bs rest : List Beat),
    s.outstanding = none →
    (exec .reset s = .next u ∨ exec .restore s = .next u ∨
      (s.st = .uninit ∧ exec .start s = .next u) ∨
      (∃ m, exec .stop s = .next m ∧ exec .start (m.withConnected true) = .next u)) →
    u.st = .ready → u.pending = bs ++ rest → (∀ b ∈ bs, b.isTraffic = true) →
    ∃ t, run bs.length u = .next t ∧
      delivered t.history = delivered s.history ++ framesOf u.cfg (fedBytes bs) ∧
      ((fedBytes bs).length < u.frameSize →
        delivered t.history = delivered s.history ∧ t.Holds (fedBytes bs))

/-- R29: stale cells are hidden: two states that differ only in cells at or above `len` run alike for
any number of steps: every output, register and index is the same, and they differ again only in
stale cells. -/
def Obligations.StaleCellsAreHidden : Prop :=
  ∀ (k : Nat) (s₁ s₂ t₁ : State), s₁.StaleAlike s₂ →
    run k s₁ = .next t₁ →
    ∃ t₂, run k s₂ = .next t₂ ∧ t₁.StaleAlike t₂

/-- R27, R181, R100 to R160: the block refines the abstract relay `(st, P)`: from a state with the
invariants in which no write waits and that holds the partial frame `P`, every command does to the
block what the table of R181 and the command's rule do to the pair, emits the same outputs in the same
order, and returns the same status; what the pair holds or refuses, the block holds or refuses. That a
held command answers the unchanged state is the model's form of hold (notes/assumptions/3.md). -/
def Obligations.BlockRefinesAbstractRelay : Prop :=
  ∀ (i : Instr) (s : State) (P : List Byte) (c : Nat),
    s.Inv → s.outstanding = none → s.Holds P → s.draws.ackCount = some c →
    ∃ t, exec i s = .next t ∧
      match Abstract.perform s.cfg ⟨s.st, P⟩ s.draws.connected
          (frameOfBus s.cfg s.draws.fiData) (countOfBus s.cfg c) i with
      | some (a, es, code) =>
        t.st = a.st ∧ t.Holds a.held ∧ t.outstanding = none ∧ t.refused = s.refused ∧
        t.history = s.history ++ es ++ [.status s.via code] ∧ t.index = s.index + 1
      | none =>
        if i = .start then t = { s with refused := true, index := s.index + 1 } else t = s
end

