-- ==== Sys2Proof/Laws/Memory.lean ====
section
/-! SUPPORT. The laws of the accumulator: reads after writes, and the canonical form. -/

namespace Sys2Proof.Machine

@[simp] theorem read_nil (i : Nat) : Memory.read [] i = none := rfl

theorem read_write_same (m : Memory) (i : Nat) (b : Byte) : (m.write i b).read i = some b := by
  induction m with
  | nil => simp [Memory.write, Memory.read]
  | cons c m ih =>
    by_cases h : i < c.1
    · simp [Memory.write, Memory.read, h]
    · by_cases e : c.1 = i
      · simp [Memory.write, Memory.read, e]
      · simp [Memory.write, Memory.read, h, e, ih]

theorem read_write_other (m : Memory) {i j : Nat} (b : Byte) (h : j ≠ i) :
    (m.write i b).read j = m.read j := by
  have h' : i ≠ j := fun e => h e.symm
  induction m with
  | nil => simp [Memory.write, Memory.read, h']
  | cons c m ih =>
    by_cases lt : i < c.1
    · simp [Memory.write, Memory.read, lt, h']
    · by_cases e : c.1 = i
      · simp [Memory.write, Memory.read, e, h']
      · simp [Memory.write, Memory.read, lt, e, ih]

/-- Reading any cell after a write: the one written holds the byte, the others are as before. -/
theorem read_write (m : Memory) (i j : Nat) (b : Byte) :
    (m.write i b).read j = if j = i then some b else m.read j := by
  split
  · next h => rw [h, read_write_same]
  · next h => exact read_write_other m b h

/-- The index of a written memory's first cell. -/
theorem head_write (m : Memory) (i : Nat) (b : Byte) (k : Nat) (hk : k < i)
    (h : ∀ c ∈ m.head?, k < c.1) : ∀ c ∈ (m.write i b).head?, k < c.1 := by
  cases m with
  | nil => simpa [Memory.write] using hk
  | cons c m =>
    simp only [Memory.write]
    split
    · simpa using hk
    · split
      · simpa using hk
      · simpa using h

theorem wf_cons (c : Host.Cell) (m : Memory) :
    Memory.wf (c :: m) = true ↔ (∀ d ∈ m.head?, c.1 < d.1) ∧ Memory.wf m = true := by
  cases m with
  | nil => simp [Memory.wf]
  | cons d m => simp [Memory.wf]

/-- Every write keeps the canonical form. -/
theorem wf_write (m : Memory) (i : Nat) (b : Byte) (h : m.wf = true) : (m.write i b).wf = true := by
  induction m with
  | nil => rfl
  | cons c m ih =>
    obtain ⟨hd, tl⟩ := (wf_cons c m).1 h
    simp only [Memory.write]
    split
    · next lt => exact (wf_cons _ _).2 ⟨by simpa using lt, h⟩
    · split
      · next e => exact (wf_cons _ _).2 ⟨by simpa [e] using hd, tl⟩
      · next nlt ne =>
        exact (wf_cons _ _).2 ⟨head_write m i b c.1 (by omega) hd, ih tl⟩

/-- A write lists no cell but the one written and those listed before. -/
theorem mem_write (m : Memory) (i : Nat) (b : Byte) :
    ∀ c ∈ m.write i b, c.1 = i ∨ c ∈ m := by
  induction m with
  | nil => simp [Memory.write]
  | cons d m ih =>
    intro c hc
    simp only [Memory.write] at hc
    split at hc
    · rcases List.mem_cons.1 hc with rfl | h
      · exact .inl rfl
      · exact .inr h
    · split at hc
      · rcases List.mem_cons.1 hc with rfl | h
        · exact .inl rfl
        · exact .inr (List.mem_cons_of_mem _ h)
      · rcases List.mem_cons.1 hc with rfl | h
        · exact .inr (List.mem_cons_self ..)
        · exact (ih c h).imp id (List.mem_cons_of_mem _)

theorem head_le_of_wf (c : Host.Cell) (m : Memory) (h : Memory.wf (c :: m) = true) :
    ∀ d ∈ m, c.1 < d.1 := by
  induction m generalizing c with
  | nil => simp
  | cons e m ih =>
    obtain ⟨hd, tl⟩ := (wf_cons c (e :: m)).1 h
    have ce : c.1 < e.1 := hd e rfl
    intro d hd'
    rcases List.mem_cons.1 hd' with rfl | hm
    · exact ce
    · exact ce.trans (ih e tl d hm)

/-- Two memories in canonical form that read alike are equal data. -/
theorem eq_of_read_eq (m m' : Memory) (h : m.wf = true) (h' : m'.wf = true)
    (e : ∀ i, m.read i = m'.read i) : m = m' := by
  have unlisted : ∀ (m : Memory) (i : Nat), (∀ d ∈ m, i < d.1) → m.read i = none := by
    intro m i hm
    induction m with
    | nil => rfl
    | cons d m ih =>
      have := hm d (List.mem_cons_self ..)
      simp only [Memory.read]
      rw [if_neg (by omega), ih fun x hx => hm x (List.mem_cons_of_mem _ hx)]
  induction m generalizing m' with
  | nil =>
    cases m' with
    | nil => rfl
    | cons d m' => simpa [Memory.read] using e d.1
  | cons c m ih =>
    cases m' with
    | nil => simpa [Memory.read] using e c.1
    | cons d m' =>
      have lc := head_le_of_wf c m h
      have ld := head_le_of_wf d m' h'
      have cd : c = d := by
        rcases Nat.lt_trichotomy c.1 d.1 with lt | eq | gt
        · have := e c.1
          rw [unlisted (d :: m') c.1 (by
            intro x hx
            rcases List.mem_cons.1 hx with rfl | hx
            · exact lt
            · exact lt.trans (ld x hx))] at this
          simp [Memory.read] at this
        · have := e c.1
          simp only [Memory.read, if_pos, eq] at this
          exact Prod.ext eq (Option.some.inj this)
        · have := e d.1
          rw [unlisted (c :: m) d.1 (by
            intro x hx
            rcases List.mem_cons.1 hx with rfl | hx
            · exact gt
            · exact gt.trans (lc x hx))] at this
          simp [Memory.read] at this
      subst cd
      congr 1
      refine ih m' ((wf_cons c m).1 h).2 ((wf_cons c m').1 h').2 fun i => ?_
      by_cases hi : c.1 = i
      · subst hi
        rw [unlisted m c.1 lc, unlisted m' c.1 ld]
      · simpa [Memory.read, hi] using e i

/-- What `readCells` answers: the bytes of `n` cells in order, when each of them holds one. -/
theorem readCells_eq_ok (m : Memory) (i n : Nat) (bs : List Byte) :
    m.readCells i n = .ok bs ↔ bs.length = n ∧ ∀ k < n, m.read (i + k) = bs[k]? := by
  induction n generalizing i bs with
  | zero =>
    cases bs <;> simp [Memory.readCells]
  | succ n ih =>
    simp only [Memory.readCells]
    constructor
    · intro h
      split at h
      · exact absurd h (by simp)
      · next b hb =>
        split at h
        · exact absurd h (by simp)
        · next tl htl =>
          obtain rfl : b :: tl = bs := by simpa using h
          obtain ⟨len, rd⟩ := (ih (i + 1) tl).1 htl
          refine ⟨by simp [len], fun k hk => ?_⟩
          cases k with
          | zero => simpa using hb
          | succ k =>
            have := rd k (by omega)
            rw [show i + (k + 1) = i + 1 + k by omega, this]
            simp
    · rintro ⟨len, rd⟩
      cases bs with
      | nil => simp at len
      | cons b tl =>
        have h0 : m.read i = some b := by simpa using rd 0 (by omega)
        have ht : m.readCells (i + 1) n = .ok tl := by
          refine (ih (i + 1) tl).2 ⟨by simpa using len, fun k hk => ?_⟩
          have := rd (k + 1) (by omega)
          rw [show i + 1 + k = i + (k + 1) by omega, this]
          simp
        simp [h0, ht]

/-- `readCells` answers bytes as soon as each of the cells holds one. -/
theorem readCells_isOk (m : Memory) (i n : Nat) (h : ∀ k < n, (m.read (i + k)).isSome = true) :
    ∃ bs, m.readCells i n = .ok bs := by
  induction n generalizing i with
  | zero => exact ⟨[], rfl⟩
  | succ n ih =>
    obtain ⟨b, hb⟩ := Option.isSome_iff_exists.1 (by simpa using h 0 (by omega))
    obtain ⟨bs, hbs⟩ := ih (i + 1) fun k hk => by
      have := h (k + 1) (by omega)
      rwa [show i + 1 + k = i + (k + 1) by omega]
    exact ⟨b :: bs, by simp [Memory.readCells, hb, hbs]⟩

/-- What `readCells` names when it does not answer: the first of the cells without a value. -/
theorem readCells_eq_error (m : Memory) (i n j : Nat) :
    m.readCells i n = .error j ↔
      i ≤ j ∧ j < i + n ∧ m.read j = none ∧ ∀ k, i ≤ k → k < j → m.read k ≠ none := by
  induction n generalizing i with
  | zero => simp [Memory.readCells]; omega
  | succ n ih =>
    simp only [Memory.readCells]
    cases hr : m.read i with
    | none =>
      simp only [Except.error.injEq]
      constructor
      · rintro rfl
        exact ⟨le_rfl, by omega, hr, fun k _ _ => by omega⟩
      · rintro ⟨a, _, _, d⟩
        by_contra hne
        exact d i le_rfl (by omega) hr
    | some b =>
      have next := ih (i + 1)
      cases h2 : m.readCells (i + 1) n with
      | ok bs =>
        rw [h2] at next
        simp only [reduceCtorEq, false_iff] at next ⊢
        rintro ⟨a, lt, c, d⟩
        have hne : i ≠ j := by rintro rfl; simp [hr] at c
        exact next ⟨by omega, by omega, c, fun k h1 h2 => d k (by omega) h2⟩
      | error j' =>
        rw [h2] at next
        simp only [Except.error.injEq] at next ⊢
        rw [next]
        constructor
        · rintro ⟨a, lt, c, d⟩
          refine ⟨by omega, by omega, c, fun k h1 h2 => ?_⟩
          by_cases e : k = i
          · simp [e, hr]
          · exact d k (by omega) h2
        · rintro ⟨a, lt, c, d⟩
          have hne : i ≠ j := by rintro rfl; simp [hr] at c
          exact ⟨by omega, by omega, c, fun k h1 h2 => d k (by omega) h2⟩

end Sys2Proof.Machine
end

