-- ==== Sys2Proof/Laws/State.lean ====
section
/-! SUPPORT. One lemma for each field of State under each update of Ops.lean and Sequencer.lean, so that
no proof unfolds a record update. -/

namespace Sys2Proof.Machine

variable (s : State)

@[simp] theorem frameSize_eq : s.frameSize = s.cfg.frameSize := rfl
@[simp] theorem complete_eq (c : Status) : s.complete c = s.completeFor s.via c := rfl

/-! ## setSt -/

@[simp] theorem setSt_cfg (v : RelayState) : (s.setSt v).cfg = s.cfg := rfl
@[simp] theorem setSt_st (v : RelayState) : (s.setSt v).st = v := rfl
@[simp] theorem setSt_len (v : RelayState) : (s.setSt v).len = s.len := rfl
@[simp] theorem setSt_buf (v : RelayState) : (s.setSt v).buf = s.buf := rfl
@[simp] theorem setSt_outstanding (v : RelayState) : (s.setSt v).outstanding = s.outstanding := rfl
@[simp] theorem setSt_history (v : RelayState) : (s.setSt v).history = s.history := rfl
@[simp] theorem setSt_refused (v : RelayState) : (s.setSt v).refused = s.refused := rfl
@[simp] theorem setSt_index (v : RelayState) : (s.setSt v).index = s.index := rfl
@[simp] theorem setSt_via (v : RelayState) : (s.setSt v).via = s.via := rfl
@[simp] theorem setSt_draws (v : RelayState) : (s.setSt v).draws = s.draws := rfl
@[simp] theorem setSt_pending (v : RelayState) : (s.setSt v).pending = s.pending := rfl

/-! ## setLen -/

@[simp] theorem setLen_cfg (n : Nat) : (s.setLen n).cfg = s.cfg := rfl
@[simp] theorem setLen_st (n : Nat) : (s.setLen n).st = s.st := rfl
@[simp] theorem setLen_len (n : Nat) : (s.setLen n).len = n := rfl
@[simp] theorem setLen_buf (n : Nat) : (s.setLen n).buf = s.buf := rfl
@[simp] theorem setLen_outstanding (n : Nat) : (s.setLen n).outstanding = s.outstanding := rfl
@[simp] theorem setLen_history (n : Nat) : (s.setLen n).history = s.history := rfl
@[simp] theorem setLen_refused (n : Nat) : (s.setLen n).refused = s.refused := rfl
@[simp] theorem setLen_index (n : Nat) : (s.setLen n).index = s.index := rfl
@[simp] theorem setLen_via (n : Nat) : (s.setLen n).via = s.via := rfl
@[simp] theorem setLen_draws (n : Nat) : (s.setLen n).draws = s.draws := rfl
@[simp] theorem setLen_pending (n : Nat) : (s.setLen n).pending = s.pending := rfl

/-! ## setBuf -/

@[simp] theorem setBuf_cfg (m : Memory) : (s.setBuf m).cfg = s.cfg := rfl
@[simp] theorem setBuf_st (m : Memory) : (s.setBuf m).st = s.st := rfl
@[simp] theorem setBuf_len (m : Memory) : (s.setBuf m).len = s.len := rfl
@[simp] theorem setBuf_buf (m : Memory) : (s.setBuf m).buf = m := rfl
@[simp] theorem setBuf_outstanding (m : Memory) : (s.setBuf m).outstanding = s.outstanding := rfl
@[simp] theorem setBuf_history (m : Memory) : (s.setBuf m).history = s.history := rfl
@[simp] theorem setBuf_refused (m : Memory) : (s.setBuf m).refused = s.refused := rfl
@[simp] theorem setBuf_index (m : Memory) : (s.setBuf m).index = s.index := rfl
@[simp] theorem setBuf_via (m : Memory) : (s.setBuf m).via = s.via := rfl
@[simp] theorem setBuf_draws (m : Memory) : (s.setBuf m).draws = s.draws := rfl
@[simp] theorem setBuf_pending (m : Memory) : (s.setBuf m).pending = s.pending := rfl

/-! ## setOutstanding -/

@[simp] theorem setOutstanding_cfg (w : Option Port) : (s.setOutstanding w).cfg = s.cfg := rfl
@[simp] theorem setOutstanding_st (w : Option Port) : (s.setOutstanding w).st = s.st := rfl
@[simp] theorem setOutstanding_len (w : Option Port) : (s.setOutstanding w).len = s.len := rfl
@[simp] theorem setOutstanding_buf (w : Option Port) : (s.setOutstanding w).buf = s.buf := rfl
@[simp] theorem setOutstanding_outstanding (w : Option Port) : (s.setOutstanding w).outstanding = w := rfl
@[simp] theorem setOutstanding_history (w : Option Port) : (s.setOutstanding w).history = s.history := rfl
@[simp] theorem setOutstanding_refused (w : Option Port) : (s.setOutstanding w).refused = s.refused := rfl
@[simp] theorem setOutstanding_index (w : Option Port) : (s.setOutstanding w).index = s.index := rfl
@[simp] theorem setOutstanding_via (w : Option Port) : (s.setOutstanding w).via = s.via := rfl
@[simp] theorem setOutstanding_draws (w : Option Port) : (s.setOutstanding w).draws = s.draws := rfl
@[simp] theorem setOutstanding_pending (w : Option Port) : (s.setOutstanding w).pending = s.pending := rfl

/-! ## emit -/

@[simp] theorem emit_cfg (e : Event) : (s.emit e).cfg = s.cfg := rfl
@[simp] theorem emit_st (e : Event) : (s.emit e).st = s.st := rfl
@[simp] theorem emit_len (e : Event) : (s.emit e).len = s.len := rfl
@[simp] theorem emit_buf (e : Event) : (s.emit e).buf = s.buf := rfl
@[simp] theorem emit_outstanding (e : Event) : (s.emit e).outstanding = s.outstanding := rfl
@[simp] theorem emit_history (e : Event) : (s.emit e).history = s.history ++ [e] := rfl
@[simp] theorem emit_refused (e : Event) : (s.emit e).refused = s.refused := rfl
@[simp] theorem emit_index (e : Event) : (s.emit e).index = s.index := rfl
@[simp] theorem emit_via (e : Event) : (s.emit e).via = s.via := rfl
@[simp] theorem emit_draws (e : Event) : (s.emit e).draws = s.draws := rfl
@[simp] theorem emit_pending (e : Event) : (s.emit e).pending = s.pending := rfl

/-! ## completeFor -/

@[simp] theorem completeFor_cfg (p : Port) (c : Status) : (s.completeFor p c).cfg = s.cfg := rfl
@[simp] theorem completeFor_st (p : Port) (c : Status) : (s.completeFor p c).st = s.st := rfl
@[simp] theorem completeFor_len (p : Port) (c : Status) : (s.completeFor p c).len = s.len := rfl
@[simp] theorem completeFor_buf (p : Port) (c : Status) : (s.completeFor p c).buf = s.buf := rfl
@[simp] theorem completeFor_outstanding (p : Port) (c : Status) : (s.completeFor p c).outstanding = s.outstanding := rfl
@[simp] theorem completeFor_history (p : Port) (c : Status) : (s.completeFor p c).history = s.history ++ [.status p c] := rfl
@[simp] theorem completeFor_refused (p : Port) (c : Status) : (s.completeFor p c).refused = s.refused := rfl
@[simp] theorem completeFor_index (p : Port) (c : Status) : (s.completeFor p c).index = s.index + 1 := rfl
@[simp] theorem completeFor_via (p : Port) (c : Status) : (s.completeFor p c).via = s.via := rfl
@[simp] theorem completeFor_draws (p : Port) (c : Status) : (s.completeFor p c).draws = s.draws := rfl
@[simp] theorem completeFor_pending (p : Port) (c : Status) : (s.completeFor p c).pending = s.pending := rfl

/-! ## refuse -/

@[simp] theorem refuse_cfg : s.refuse.cfg = s.cfg := rfl
@[simp] theorem refuse_st : s.refuse.st = s.st := rfl
@[simp] theorem refuse_len : s.refuse.len = s.len := rfl
@[simp] theorem refuse_buf : s.refuse.buf = s.buf := rfl
@[simp] theorem refuse_outstanding : s.refuse.outstanding = s.outstanding := rfl
@[simp] theorem refuse_history : s.refuse.history = s.history := rfl
@[simp] theorem refuse_refused : s.refuse.refused = true := rfl
@[simp] theorem refuse_index : s.refuse.index = s.index + 1 := rfl
@[simp] theorem refuse_via : s.refuse.via = s.via := rfl
@[simp] theorem refuse_draws : s.refuse.draws = s.draws := rfl
@[simp] theorem refuse_pending : s.refuse.pending = s.pending := rfl

/-! ## accept -/

@[simp] theorem accept_cfg (p : Port) (d : Draws) (r : List Beat) : (s.accept p d r).cfg = s.cfg := rfl
@[simp] theorem accept_st (p : Port) (d : Draws) (r : List Beat) : (s.accept p d r).st = s.st := rfl
@[simp] theorem accept_len (p : Port) (d : Draws) (r : List Beat) : (s.accept p d r).len = s.len := rfl
@[simp] theorem accept_buf (p : Port) (d : Draws) (r : List Beat) : (s.accept p d r).buf = s.buf := rfl
@[simp] theorem accept_outstanding (p : Port) (d : Draws) (r : List Beat) : (s.accept p d r).outstanding = s.outstanding := rfl
@[simp] theorem accept_history (p : Port) (d : Draws) (r : List Beat) : (s.accept p d r).history = s.history := rfl
@[simp] theorem accept_refused (p : Port) (d : Draws) (r : List Beat) : (s.accept p d r).refused = s.refused := rfl
@[simp] theorem accept_index (p : Port) (d : Draws) (r : List Beat) : (s.accept p d r).index = s.index := rfl
@[simp] theorem accept_via (p : Port) (d : Draws) (r : List Beat) : (s.accept p d r).via = p := rfl
@[simp] theorem accept_draws (p : Port) (d : Draws) (r : List Beat) : (s.accept p d r).draws = d := rfl
@[simp] theorem accept_pending (p : Port) (d : Draws) (r : List Beat) : (s.accept p d r).pending = r := rfl

/-! ## setPending -/

@[simp] theorem setPending_cfg (r : List Beat) : (s.setPending r).cfg = s.cfg := rfl
@[simp] theorem setPending_st (r : List Beat) : (s.setPending r).st = s.st := rfl
@[simp] theorem setPending_len (r : List Beat) : (s.setPending r).len = s.len := rfl
@[simp] theorem setPending_buf (r : List Beat) : (s.setPending r).buf = s.buf := rfl
@[simp] theorem setPending_outstanding (r : List Beat) : (s.setPending r).outstanding = s.outstanding := rfl
@[simp] theorem setPending_history (r : List Beat) : (s.setPending r).history = s.history := rfl
@[simp] theorem setPending_refused (r : List Beat) : (s.setPending r).refused = s.refused := rfl
@[simp] theorem setPending_index (r : List Beat) : (s.setPending r).index = s.index := rfl
@[simp] theorem setPending_via (r : List Beat) : (s.setPending r).via = s.via := rfl
@[simp] theorem setPending_draws (r : List Beat) : (s.setPending r).draws = s.draws := rfl
@[simp] theorem setPending_pending (r : List Beat) : (s.setPending r).pending = r := rfl

end Sys2Proof.Machine
end

