-- ==== Sys2Proof/Laws/Ops.lean ====
section
/-! SUPPORT. What each shared operation can do, said once, so that no later proof unfolds it. -/

namespace Sys2Proof.Machine

open Sys2Proof

variable {s t : State}

theorem writeFree_iff : s.writeFree = true ↔ s.outstanding = none := by
  simp [State.writeFree]

theorem trafficReady_iff : s.trafficReady = true ↔ s.st = .ready ∧ s.outstanding = none := by
  simp [State.trafficReady, writeFree_iff]

theorem frameComplete_iff : s.frameComplete = true ↔ s.len = s.cfg.frameSize := by
  simp [State.frameComplete]

theorem shortWrite_iff {p : Params} {count : Nat} : shortWrite p count = true ↔ count < p.frameSize := by
  simp [shortWrite]

/-- `MemWrite` answers exactly on the cells of the accumulator. -/
theorem memWrite_eq_ok {i : Nat} {b : Byte} :
    s.memWrite i b = .ok t ↔ i < s.cfg.frameSize ∧ t = s.setBuf (s.buf.write i b) := by
  simp only [State.memWrite, frameSize_eq]
  split <;> simp_all [eq_comm]

theorem memWrite_eq_error {i : Nat} {b : Byte} {r : Fault} :
    s.memWrite i b = .error r ↔ s.cfg.frameSize ≤ i ∧ r = .noSuchCell i := by
  simp only [State.memWrite, frameSize_eq]
  split <;> simp_all [eq_comm]

/-- `MemRead` answers the bytes of all `N` cells, in order, when each holds one. -/
theorem memRead_eq_ok {f : Frame} :
    s.memRead = .ok f ↔
      f.length = s.cfg.frameSize ∧ ∀ k < s.cfg.frameSize, s.buf.read k = f[k]? := by
  have := readCells_eq_ok s.buf 0 s.cfg.frameSize f
  simp only [Nat.zero_add] at this
  rw [← this]
  simp only [State.memRead, frameSize_eq]
  split <;> simp_all

/-- A drain that answers has delivered the accumulator and emptied the length. -/
theorem drain_eq_ok :
    s.drain = .ok t ↔ ∃ f, s.memRead = .ok f ∧ t = (s.emit (.deliver f)).setLen 0 := by
  cases h : s.memRead <;> simp [State.drain, h, eq_comm]

theorem drain_eq_error {r : Fault} : s.drain = .error r ↔ s.memRead = .error r := by
  cases h : s.memRead <;> simp [State.drain, h]

/-- A partial frame that fills the accumulator is what the drain's read answers. -/
theorem memRead_of_holds {f : Frame} (len : f.length = s.cfg.frameSize)
    (rd : ∀ k < f.length, s.buf.read k = f[k]?) : s.memRead = .ok f :=
  memRead_eq_ok.2 ⟨len, fun k hk => rd k (by omega)⟩

/-- The two ways a write finishes. -/
theorem finishWrite_eq (via : Port) (count : Nat) :
    s.finishWrite via count =
      if count < s.cfg.frameSize then
        ((s.setOutstanding none).emit (.report .shortWriteError count)).completeFor via .ok
      else (s.setOutstanding none).completeFor via .ok := by
  by_cases h : count < s.cfg.frameSize <;> simp [State.finishWrite, shortWrite, h]

@[simp] theorem finishWrite_cfg (via : Port) (n : Nat) : (s.finishWrite via n).cfg = s.cfg := by
  rw [finishWrite_eq]; split <;> rfl
@[simp] theorem finishWrite_st (via : Port) (n : Nat) : (s.finishWrite via n).st = s.st := by
  rw [finishWrite_eq]; split <;> rfl
@[simp] theorem finishWrite_len (via : Port) (n : Nat) : (s.finishWrite via n).len = s.len := by
  rw [finishWrite_eq]; split <;> rfl
@[simp] theorem finishWrite_buf (via : Port) (n : Nat) : (s.finishWrite via n).buf = s.buf := by
  rw [finishWrite_eq]; split <;> rfl
@[simp] theorem finishWrite_outstanding (via : Port) (n : Nat) :
    (s.finishWrite via n).outstanding = none := by
  rw [finishWrite_eq]; split <;> rfl
@[simp] theorem finishWrite_refused (via : Port) (n : Nat) :
    (s.finishWrite via n).refused = s.refused := by
  rw [finishWrite_eq]; split <;> rfl
@[simp] theorem finishWrite_index (via : Port) (n : Nat) :
    (s.finishWrite via n).index = s.index + 1 := by
  rw [finishWrite_eq]; split <;> rfl
@[simp] theorem finishWrite_via (via : Port) (n : Nat) : (s.finishWrite via n).via = s.via := by
  rw [finishWrite_eq]; split <;> rfl
@[simp] theorem finishWrite_draws (via : Port) (n : Nat) : (s.finishWrite via n).draws = s.draws := by
  rw [finishWrite_eq]; split <;> rfl
@[simp] theorem finishWrite_pending (via : Port) (n : Nat) :
    (s.finishWrite via n).pending = s.pending := by
  rw [finishWrite_eq]; split <;> rfl

/-- What a finished write adds to the history: its report if it was short, and the status. -/
theorem finishWrite_history (via : Port) (n : Nat) :
    (s.finishWrite via n).history =
      s.history ++ (if n < s.cfg.frameSize then [.report .shortWriteError n] else []) ++
        [.status via .ok] := by
  rw [finishWrite_eq]; split <;> simp

/-- A lane list has as many bytes as lanes. -/
@[simp] theorem lanes_length (n v : Nat) : (lanes n v).length = n := by
  induction n generalizing v with
  | zero => rfl
  | succ n ih => simp [lanes, ih]

@[simp] theorem frameOfBus_length (p : Params) (v : Nat) : (frameOfBus p v).length = p.frameSize :=
  lanes_length _ _

@[simp] theorem frameOperand_length : s.frameOperand.length = s.cfg.frameSize :=
  frameOfBus_length _ _

/-! ## What each command can do

Each lemma lists every outcome of one command. -/

/-- FEED_BYTE: held; stored; stored and drained; or a fault of an accumulator access. -/
theorem execFeedByte_cases (b : Byte) (s : State) :
    (s.trafficReady = false ∧ execFeedByte b s = .next s) ∨
    (s.trafficReady = true ∧ s.len + 1 < s.cfg.frameSize ∧
      execFeedByte b s =
        .next (((s.setBuf (s.buf.write s.len b)).setLen (s.len + 1)).completeFor s.via .ok)) ∨
    (∃ f, s.trafficReady = true ∧ s.len + 1 = s.cfg.frameSize ∧
      (s.setBuf (s.buf.write s.len b)).memRead = .ok f ∧
      execFeedByte b s =
        .next ((((s.setBuf (s.buf.write s.len b)).emit (.deliver f)).setLen 0).completeFor s.via .ok)) ∨
    (∃ r, s.trafficReady = true ∧ s.len + 1 = s.cfg.frameSize ∧
      (s.setBuf (s.buf.write s.len b)).memRead = .error r ∧ execFeedByte b s = .fault r) ∨
    (s.trafficReady = true ∧ s.cfg.frameSize ≤ s.len ∧ execFeedByte b s = .fault (.noSuchCell s.len)) := by
  cases ht : s.trafficReady with
  | false => exact .inl ⟨rfl, by simp [execFeedByte, ht, hold]⟩
  | true =>
    refine .inr ?_
    by_cases hl : s.len < s.cfg.frameSize
    · have hw : s.memWrite s.len b = .ok (s.setBuf (s.buf.write s.len b)) :=
        memWrite_eq_ok.2 ⟨hl, rfl⟩
      by_cases hf : s.len + 1 = s.cfg.frameSize
      · have hr : (((s.setBuf (s.buf.write s.len b)).setLen (s.len + 1)).memRead) =
            (s.setBuf (s.buf.write s.len b)).memRead := rfl
        cases hm : (s.setBuf (s.buf.write s.len b)).memRead with
        | ok f =>
          refine .inr (.inl ⟨f, rfl, hf, rfl, ?_⟩)
          simp only [execFeedByte, ht, hw, if_true, State.frameComplete, setLen_len, frameSize_eq,
            setLen_cfg, setBuf_cfg, hf, decide_true, State.drain]
          rw [← hf, hr, hm]
          rfl
        | error r =>
          refine .inr (.inr (.inl ⟨r, rfl, hf, rfl, ?_⟩))
          simp only [execFeedByte, ht, hw, if_true, State.frameComplete, setLen_len, frameSize_eq,
            setLen_cfg, setBuf_cfg, hf, decide_true, State.drain]
          rw [← hf, hr, hm]
      · refine .inl ⟨rfl, by omega, ?_⟩
        simp [execFeedByte, ht, hw, State.frameComplete, hf]
    · have hw : s.memWrite s.len b = .error (.noSuchCell s.len) :=
        memWrite_eq_error.2 ⟨by omega, rfl⟩
      exact .inr (.inr (.inr ⟨rfl, by omega, by simp [execFeedByte, ht, hw]⟩))

/-- FEED_BYTE in one equation over the accumulator's read. -/
theorem execFeedByte_eq (b : Byte) (s : State) :
    execFeedByte b s =
      if s.trafficReady then
        if s.len < s.cfg.frameSize then
          if s.len + 1 = s.cfg.frameSize then
            match (s.buf.write s.len b).readCells 0 s.cfg.frameSize with
            | .ok f =>
              .next ((((s.setBuf (s.buf.write s.len b)).emit (.deliver f)).setLen 0).completeFor s.via .ok)
            | .error i => .fault (.unwrittenCell i)
          else .next (((s.setBuf (s.buf.write s.len b)).setLen (s.len + 1)).completeFor s.via .ok)
        else .fault (.noSuchCell s.len)
      else .next s := by
  have rd : ∀ f : Frame, (s.setBuf (s.buf.write s.len b)).memRead = .ok f →
      (s.buf.write s.len b).readCells 0 s.cfg.frameSize = .ok f := fun f h =>
    (readCells_eq_ok ..).2 (by simpa using memRead_eq_ok.1 h)
  have re : ∀ r, (s.setBuf (s.buf.write s.len b)).memRead = .error r →
      ∃ i, (s.buf.write s.len b).readCells 0 s.cfg.frameSize = .error i ∧ r = .unwrittenCell i := by
    intro r h
    unfold State.memRead at h
    split at h
    · cases h
    · next i hi => exact ⟨i, hi, by cases h; rfl⟩
  rcases execFeedByte_cases b s with ⟨h, e⟩ | ⟨h, h', e⟩ | ⟨f, h, h', m, e⟩ | ⟨r, h, h', m, e⟩ | ⟨h, h', e⟩
  · simp [e, h]
  · rw [e, if_pos h, if_pos (by omega), if_neg (by omega)]
  · rw [e, if_pos h, if_pos (by omega), if_pos h', rd f m]
  · obtain ⟨i, hi, rfl⟩ := re r m
    rw [e, if_pos h, if_pos (by omega), if_pos h', hi]
  · rw [e, if_pos h, if_neg (by omega)]

theorem execReset_eq (s : State) :
    execReset s = .next (if s.writeFree then (s.setLen 0).completeFor s.via .ok else s) := by
  simp only [execReset, hold]; split <;> rfl

theorem execRestore_eq (s : State) :
    execRestore s = .next (if s.writeFree then (s.setLen 0).completeFor s.via .ok else s) := by
  simp only [execRestore, hold]; split <;> rfl

theorem execStop_eq (s : State) :
    execStop s =
      .next (if s.writeFree then ((s.setSt .uninit).setLen 0).completeFor s.via .ok else s) := by
  simp only [execStop, hold]; split <;> rfl

theorem execStart_eq (s : State) :
    execStart s =
      .next (if s.writeFree then
          if s.st = .ready then s.refuse
          else if s.draws.connected then ((s.setSt .ready).setLen 0).completeFor s.via .ok
          else s.completeFor s.via .configurationError
        else s) := by
  simp only [execStart, hold]
  split
  · cases h : s.st <;> simp
    split <;> rfl
  · rfl

theorem execSend_eq (s : State) :
    execSend s =
      .next (if s.trafficReady then
          match s.draws.ackCount with
          | some c => (s.emit (.txWrite s.frameOperand)).finishWrite s.via (countOfBus s.cfg c)
          | none => (s.emit (.txWrite s.frameOperand)).setOutstanding (some s.via)
        else s) := by
  simp only [execSend, hold]
  split
  · cases s.draws.ackCount <;> rfl
  · rfl

theorem execTevent_eq (tag : Byte) (s : State) :
    execTevent tag s = .next (s.completeFor s.via .ok) := rfl

/-- A step with nothing offered. -/
theorem step_nil (h : s.pending = []) : stepBeat s = .next s := by simp [stepBeat, h]

/-- A step with a beat offered. -/
theorem step_cons {beat : Beat} {rest : List Beat} (h : s.pending = beat :: rest) :
    stepBeat s = perform beat rest s := by simp [stepBeat, h]

/-- A run is the run of the host's core. -/
theorem core_run_eq (k : Nat) (s : State) : Sys2Proof.core.run k s = run k s := by
  induction k generalizing s with
  | zero => rfl
  | succ k ih =>
    cases h : step s with
    | next u =>
      have e : Sys2Proof.core.step s = .next u := h
      simp only [Host.Core.run, run, h, e]
      exact ih u
    | fault r =>
      have e : Sys2Proof.core.step s = .fault r := h
      simp only [Host.Core.run, run, h, e]
      rfl
    | refused r =>
      have e : Sys2Proof.core.step s = .refused r := h
      simp only [Host.Core.run, run, h, e]
      rfl

/-- A run whose first step answers goes on from there. -/
theorem run_succ (k : Nat) (h : step s = .next t) : run (k + 1) s = run k t := by
  simp only [run, h]

/-- A run of `j + k` steps is a run of `k` steps after one of `j`. -/
theorem run_add (j k : Nat) (h : run j s = .next t) : run (j + k) s = run k t := by
  induction j generalizing s with
  | zero =>
    obtain rfl : s = t := by simpa [run] using h
    rw [Nat.zero_add]
  | succ j ih =>
    rw [show j + 1 + k = j + k + 1 by omega]
    simp only [run] at h ⊢
    split at h
    · next s' e => exact ih h
    · cases h
    · cases h

/-! ## Views of the history -/

@[simp] theorem delivered_append (h g : List Event) : delivered (h ++ g) = delivered h ++ delivered g :=
  List.filterMap_append
@[simp] theorem written_append (h g : List Event) : written (h ++ g) = written h ++ written g :=
  List.filterMap_append
@[simp] theorem reported_append (h g : List Event) : reported (h ++ g) = reported h ++ reported g :=
  List.filterMap_append
@[simp] theorem donePulses_append (h g : List Event) :
    donePulses (h ++ g) = donePulses h ++ donePulses g := List.filterMap_append
@[simp] theorem visibleEvents_append (h g : List Event) :
    visibleEvents (h ++ g) = visibleEvents h ++ visibleEvents g := List.filter_append ..
@[simp] theorem delivered_nil : delivered [] = [] := rfl
@[simp] theorem written_nil : written [] = [] := rfl
@[simp] theorem reported_nil : reported [] = [] := rfl
@[simp] theorem visibleEvents_nil : visibleEvents [] = [] := rfl
@[simp] theorem delivered_deliver (f : Frame) (h : List Event) :
    delivered (.deliver f :: h) = f :: delivered h := rfl
@[simp] theorem delivered_txWrite (f : Frame) (h : List Event) :
    delivered (.txWrite f :: h) = delivered h := rfl
@[simp] theorem delivered_report (c : ReportCode) (n : Nat) (h : List Event) :
    delivered (.report c n :: h) = delivered h := rfl
@[simp] theorem delivered_status (p : Port) (c : Status) (h : List Event) :
    delivered (.status p c :: h) = delivered h := rfl
@[simp] theorem written_deliver (f : Frame) (h : List Event) :
    written (.deliver f :: h) = written h := rfl
@[simp] theorem written_txWrite (f : Frame) (h : List Event) :
    written (.txWrite f :: h) = f :: written h := rfl
@[simp] theorem written_report (c : ReportCode) (n : Nat) (h : List Event) :
    written (.report c n :: h) = written h := rfl
@[simp] theorem written_status (p : Port) (c : Status) (h : List Event) :
    written (.status p c :: h) = written h := rfl
@[simp] theorem reported_deliver (f : Frame) (h : List Event) :
    reported (.deliver f :: h) = reported h := rfl
@[simp] theorem reported_txWrite (f : Frame) (h : List Event) :
    reported (.txWrite f :: h) = reported h := rfl
@[simp] theorem reported_report (c : ReportCode) (n : Nat) (h : List Event) :
    reported (.report c n :: h) = (c.code, n) :: reported h := rfl
@[simp] theorem reported_status (p : Port) (c : Status) (h : List Event) :
    reported (.status p c :: h) = reported h := rfl

end Sys2Proof.Machine
end

