-- ==== Sys2Proof/Laws/PerInstr.lean ====
section
/-! SUPPORT. Per-command facts about the encoding, one lemma per constructor of Instr. -/

namespace Sys2Proof.Laws

/-- The word of a command has the format of R77 with a legal `OP` (R78): `Z = 0`, `OP` in `0x1`-`0x7`, and
`IMM8 = 0` unless the command has an operand in the word. -/
def WordFormat.Statement (i : Instr) : Prop :=
  zOf (encode i) = 0#4 ∧ 1 ≤ (opOf (encode i)).toNat ∧ (opOf (encode i)).toNat ≤ 7 ∧
  match i with
  | .feedByte b => immOf (encode i) = b
  | .tevent t => immOf (encode i) = t
  | _ => immOf (encode i) = 0#8

theorem WordFormat.feedByte (b : Byte) : WordFormat.Statement (.feedByte b) := by
  revert b; unfold WordFormat.Statement; decide
theorem WordFormat.reset : WordFormat.Statement .reset := by
  unfold WordFormat.Statement; decide
theorem WordFormat.start : WordFormat.Statement .start := by
  unfold WordFormat.Statement; decide
theorem WordFormat.stop : WordFormat.Statement .stop := by
  unfold WordFormat.Statement; decide
theorem WordFormat.restore : WordFormat.Statement .restore := by
  unfold WordFormat.Statement; decide
theorem WordFormat.send : WordFormat.Statement .send := by
  unfold WordFormat.Statement; decide
theorem WordFormat.tevent (t : Byte) : WordFormat.Statement (.tevent t) := by
  revert t; unfold WordFormat.Statement; decide

end Sys2Proof.Laws
end

