-- ==== Sys2Proof/Tests/Slice0.lean ====
section
/-! SUPPORT. Small tests from the vectors of spec/95_test_vectors.md and the encodings of
spec/30_encoding.md, and for each obligation with hypotheses a state and operands that meet them. -/

namespace Sys2Proof.Tests

open Sys2Proof Sys2Proof.Machine

/-! ## Well-formedness: one ill-formed term for each check -/

/-- `N = 4`, as in the vectors. -/
def four : Params := ⟨4, by decide⟩
/-- `N = 1`. -/
def one : Params := ⟨1, by decide⟩

theorem test_short_frame_ill_formed : frameWf four [0, 1, 2] = false := by decide
theorem test_long_frame_ill_formed : frameWf four [0, 1, 2, 3, 4] = false := by decide
theorem test_byte_256_ill_formed : byteWf 256 = false := by decide
theorem test_count_too_wide_ill_formed : busWf (cntWidth four) 8 = false := by decide
theorem test_send_line_short_frame_ill_formed :
    (AsmLine.send [0, 1, 2] (some 4)).wf four = false := by decide

/-! ## Decoding: words written out bit by bit from R77 and R78 -/

theorem test_decode_feed_byte : decode 0b1010101000000001#16 = .ok (.feedByte 0xAA) := by decide
theorem test_decode_reset : decode 0b0000000000000010#16 = .ok .reset := by decide
theorem test_decode_start : decode 0b0000000000000011#16 = .ok .start := by decide
theorem test_decode_stop : decode 0b0000000000000100#16 = .ok .stop := by decide
theorem test_decode_restore : decode 0b0000000000000101#16 = .ok .restore := by decide
theorem test_decode_send : decode 0b0000000000000110#16 = .ok .send := by decide
theorem test_decode_tevent : decode 0b1010101100000111#16 = .ok (.tevent 0xAB) := by decide
theorem test_decode_send_with_imm : decode 0b0000000100000110#16 = .error .immField := by decide
theorem test_decode_op_15 : decode 0b0000111100001111#16 = .error .opField := by decide
theorem test_decode_z_15 : decode 0b0000000011110001#16 = .error .zField := by decide
theorem test_table_word : decodeTableWord 16 0xFF01 = some (.feedByte 0xFF) := by decide

/-! ## One step of each command -/

/-- The cells of a partial frame. -/
def cellsFrom : Nat → List Byte → Memory
  | _, [] => []
  | i, b :: bs => (i, b) :: cellsFrom (i + 1) bs

/-- The state `(st, P)` of the vectors. -/
def at_ (p : Params) (st : RelayState) (P : List Byte) : State :=
  { State.powerOn p with st := st, len := P.length, buf := cellsFrom 0 P }

/-- The same with draws. -/
def withDraws (s : State) (connected : Bool) (fi : Nat) (count : Option Nat) : State :=
  { s with draws := { connected := connected, fiData := fi, ackCount := count } }

/-- The result is a next state with this Relay state, length and outputs. -/
def ends (r : Result) (st : RelayState) (len : Nat) (h : List Event) : Bool :=
  match r with
  | .next t => decide (t.st = st) && decide (t.len = len) && decide (t.history = h)
  | _ => false

/-- V1. -/
theorem test_feed_partial :
    ends (exec (.feedByte 0xAA) (at_ four .ready [])) .ready 1 [.status .command .ok] = true := by decide
/-- V2. -/
theorem test_feed_drains :
    ends (exec (.feedByte 0x13) (at_ four .ready [0x10, 0x11, 0x12])) .ready 0
      [.deliver [0x10, 0x11, 0x12, 0x13], .status .command .ok] = true := by decide
/-- V11. -/
theorem test_reset :
    ends (exec .reset (at_ four .ready [0xAA, 0xBB])) .ready 0 [.status .command .ok] = true := by decide
/-- V16. -/
theorem test_start_not_connected :
    ends (exec .start (at_ four .uninit [])) .uninit 0
      [.status .command .configurationError] = true := by decide
/-- V17. -/
theorem test_start_connected :
    ends (exec .start (withDraws (at_ four .uninit []) true 0 none)) .ready 0
      [.status .command .ok] = true := by decide
/-- V20. -/
theorem test_stop :
    ends (exec .stop (at_ four .ready [1, 2, 3])) .uninit 0 [.status .command .ok] = true := by decide
/-- V24. -/
theorem test_restore :
    ends (exec .restore (at_ four .ready [1, 2, 3])) .ready 0 [.status .command .ok] = true := by decide
/-- V28, with the `fi_data` of program 1: `0xA3A2A1A0`. -/
theorem test_send_short :
    ends (exec .send (withDraws (at_ four .ready []) false 0xA3A2A1A0 (some 3))) .ready 0
      [.txWrite [0xA0, 0xA1, 0xA2, 0xA3], .report .shortWriteError 3, .status .command .ok] = true := by
  decide
/-- V30: a count above `N` is not short. -/
theorem test_send_count_above :
    ends (exec .send (withDraws (at_ four .ready []) false 0xA3A2A1A0 (some 5))) .ready 0
      [.txWrite [0xA0, 0xA1, 0xA2, 0xA3], .status .command .ok] = true := by decide
/-- V34. -/
theorem test_tevent :
    ends (exec (.tevent 1) (at_ four .ready [1, 2])) .ready 2 [.status .command .ok] = true := by decide
/-- V3: `N = 1`, one word of a program placed and stepped. -/
theorem test_step_word_n1 :
    ends (step ((at_ one .ready []).withFetchWord 16 0x0001)) .ready 0
      [.deliver [0x00], .status .command .ok] = true := by decide
/-- V37: a reserved word is refused after reset. -/
theorem test_step_reserved :
    (match step (State.reset.withFetchWord 16 0x0000) with
      | .next t => t.refused
      | _ => false) = true := by decide

/-! ## The assembler -/

theorem test_parse_feed_byte : parseLine "feed.b 0x13 ; a byte".toList = some (.feedB 0x13) := by decide
theorem test_parse_send :
    parseLine "send [0xA0, 161, 162, 163] ; count=4".toList =
      some (.send [0xA0, 0xA1, 0xA2, 0xA3] (some 4)) := by decide
theorem test_assemble_start :
    (assemble four "start ; connected=1".toList).map (List.map Beat.offer) =
      some [.command 0x0003] := by decide
theorem test_parse_byte_out_of_range : parseLine "tevent 256".toList = none := by decide

/-! ## Witnesses: for each obligation with hypotheses, a state that meets them -/

/-- The same with beats offered. -/
def offering (s : State) (beats : List Beat) : State := { s with pending := beats }

/-- A beat without draws. -/
def beat (o : Offer) : Beat := ⟨o, noDraws⟩

/-- The same with a write outstanding. -/
def waiting (s : State) (v : Port) : State := { s with outstanding := some v }

/-- `READY`, three of four bytes held: the last state before a drain. -/
def full3 : State := at_ four .ready [0x10, 0x11, 0x12]
/-- `READY`, two of four bytes held: the last state whose FEED_BYTE does not drain. -/
def full2 : State := at_ four .ready [0x10, 0x11]
/-- `READY`, nothing held. -/
def empty0 : State := at_ four .ready []
/-- `UNINIT`. -/
def off : State := at_ four .uninit []

theorem witness_StepRunsDecodedCommand :
    (offering full3 [beat (.command 0x1301)]).pending = beat (.command 0x1301) :: [] ∧
    decode 0x1301 = .ok (.feedByte 0x13) ∧
    (offering full3 [beat (.command 0x1301)]).cmdReady 0x1301 = true ∧
    (offering off [beat (.command 0x1301)]).cmdReady 0x1301 = false ∧
    decode 0x0107 = .ok (.tevent 1) ∧ (waiting full3 .frameIn).cmdReady 0x0107 = false ∧
    full3.cmdReady 0x0107 = true := by decide

theorem witness_DedicatedPortRunsItsCommand :
    (full3.st = .ready ∧ full3.outstanding = none) ∧ off.st = .uninit ∧
    (waiting full3 .frameIn).outstanding ≠ none ∧
    (offering full3 [beat (.rxByte 0)]).pending = beat (.rxByte 0) :: [] ∧
    (offering full3 [beat .frameIn]).pending = beat .frameIn :: [] ∧
    (offering full3 [beat (.event 0)]).pending = beat (.event 0) :: [] := by decide

theorem witness_IdleBlockKeepsItsState : empty0.pending = [] := by decide

theorem witness_ReservedWordIsRefused :
    (offering off [beat (.command 0x0011)]).pending = beat (.command 0x0011) :: [] ∧
    legalWord 0x0011 = false ∧ off.outstanding = none ∧
    (offering (waiting full2 .command) [beat (.command 0x0011)]).pending =
      beat (.command 0x0011) :: [] ∧
    (offering (waiting full2 .command) [beat (.command 0x0011)]).outstanding ≠ none := by decide

theorem witness_FeedByteStoresAtLength :
    full2.st = .ready ∧ full2.outstanding = none ∧ full2.len + 1 < full2.frameSize := by decide

theorem witness_FeedByteDeliversFullFrame :
    full3.st = .ready ∧ full3.outstanding = none ∧ full3.Holds [0x10, 0x11, 0x12] ∧
    [0x10, 0x11, 0x12].length + 1 = full3.frameSize := by decide

theorem witness_TrafficIsHeldInUninit : off.st = .uninit := by decide

theorem witness_OutstandingWriteHoldsCommands :
    (waiting full3 .command).outstanding ≠ none ∧ ∀ t, Instr.stop ≠ .tevent t :=
  ⟨by decide, fun _ h => by cases h⟩

/-- Both faults are reached: beyond the last cell, and a drain over cells without a value. -/
theorem witness_FaultsAreMissingCells :
    exec (.feedByte 0) { empty0 with len := 4 } = .fault (.noSuchCell 4) ∧
    exec (.feedByte 0) { empty0 with len := 3 } = .fault (.unwrittenCell 0) := ⟨rfl, rfl⟩

theorem witness_ReceiveReadyMeansPerformed :
    full3.Inv ∧ full3.rxReady = true ∧ off.Inv ∧ off.rxReady = false := by decide

theorem witness_ResetEmptiesTheLength : full3.outstanding = none ∧ off.outstanding = none := by decide

theorem witness_RestoreIsExactlyReset : full3.outstanding = none := by decide

theorem witness_StartSamplesConnected :
    off.st = .uninit ∧ off.outstanding = none ∧ off.draws.connected = false ∧
    (off.withConnected true).draws.connected = true := by decide

theorem witness_StartInReadyIsRefused : full2.st = .ready ∧ full2.outstanding = none := by decide

theorem witness_StopEntersUninit : full3.outstanding = none ∧ off.outstanding = none := by decide

theorem witness_LengthResetsAreIdempotent : ∃ t, exec .stop full3 = .next t := ⟨_, rfl⟩

/-- A count of `N - 1` is short, `N` is not. -/
theorem witness_SendWritesAndChecksCount :
    full2.st = .ready ∧ full2.outstanding = none ∧
    (full2.withAnswer (some 3)).draws.ackCount = some 3 ∧ countOfBus four 3 < full2.frameSize ∧
    (full2.withAnswer (some 4)).draws.ackCount = some 4 ∧ full2.frameSize ≤ countOfBus four 4 := by decide

theorem witness_UnansweredSendWaits :
    full2.st = .ready ∧ full2.outstanding = none ∧ full2.draws.ackCount = none := by decide

theorem witness_AcknowledgeCompletesWaitingSend :
    (offering (waiting full2 .frameIn) [beat (.ack 3)]).outstanding = some .frameIn ∧
    (offering (waiting full2 .frameIn) [beat (.ack 3)]).pending = beat (.ack 3) :: [] ∧
    countOfBus four 3 < full2.frameSize ∧ full2.frameSize ≤ countOfBus four 4 := by decide

theorem witness_LateAnswerEqualsImmediateAnswer :
    full2.st = .ready ∧ full2.outstanding = none ∧
    (offering full2 [beat (.event 1), beat (.ack 2)]).pending =
      [((1 : Byte), noDraws)].map (fun e => ⟨.event e.1, e.2⟩) ++ ⟨.ack 2, noDraws⟩ :: [] := by decide

/-- A short write, so that the clause about reports applies. -/
theorem witness_SendKeepsReassemblyState :
    ∃ t, exec .send (full2.withAnswer (some 0)) = .next t ∧
      reported t.history ≠ reported (full2.withAnswer (some 0)).history := ⟨_, rfl, by decide⟩

theorem witness_RepeatedShortWritesOnlyReport :
    full2.st = .ready ∧ full2.outstanding = none ∧
    ∀ b ∈ [(⟨.frameIn, ⟨false, 7, some 3⟩⟩ : Beat), ⟨.command 0x0006, ⟨false, 9, some 0⟩⟩],
      b.command? = some .send ∧ ∃ c, b.draws.ackCount = some c ∧ countOfBus four c < full2.frameSize := by
  refine ⟨by decide, by decide, fun b hb => ?_⟩
  simp only [List.mem_cons, List.not_mem_nil, or_false] at hb
  rcases hb with rfl | rfl
  · exact ⟨by decide, 3, rfl, by decide⟩
  · exact ⟨by decide, 0, rfl, by decide⟩

theorem witness_OnlyStartReadsConnected : Instr.send ≠ .start := by decide

theorem witness_FrameBusPacking :
    3 < four.frameSize ∧ ([1, 2, 3, 4] : Frame)[3]? = some 4 ∧
    ([1, 2, 3, 4] : Frame).length = four.frameSize ∧
    (delivered [.txWrite [0, 0, 0, 0], .deliver [1, 2, 3, 4]])[0]? = some [1, 2, 3, 4] ∧
    (foData [.txWrite [0, 0, 0, 0], .deliver [1, 2, 3, 4]])[0]? = some 0x04030201 ∧
    (written [.deliver [0, 0, 0, 0], .txWrite [1, 2, 3, 4]])[0]? = some [1, 2, 3, 4] ∧
    (txData [.deliver [0, 0, 0, 0], .txWrite [1, 2, 3, 4]])[0]? = some 0x04030201 := by decide

theorem witness_WidthsHoldTheirRanges :
    3 < four.frameSize ∧ 4 ≤ four.frameSize ∧ 2 ≤ four.frameSize ∧ one.frameSize = 1 := by decide

/-- START by the command port, connected and not. -/
theorem witness_CodesOnTheOutputs :
    off.st = .uninit ∧ off.outstanding = none ∧ off.via = .command ∧
    off.draws.connected = false ∧ (off.withConnected true).via = .command ∧
    (off.withConnected true).draws.connected = true := by decide

theorem witness_StepKeepsInvariant :
    (offering full3 [beat (.rxByte 0x13)]).Inv ∧
    ∃ t, step (offering full3 [beat (.rxByte 0x13)]) = .next t := ⟨by decide, _, rfl⟩

theorem witness_NoCommandStopsUnderInvariant :
    (offering off [beat (.ack 0)]).Inv ∧
    step (offering off [beat (.ack 0)]) = .refused .unsolicitedAck := ⟨by decide, rfl⟩

theorem witness_HistoryOnlyGrows :
    ∃ t, step (offering full3 [beat (.rxByte 0x13)]) = .next t := ⟨_, rfl⟩

/-- The mark set by a START in `READY`, set by a reserved word, and kept by a next command. -/
theorem witness_RefusalMarkOnlyByRefusal :
    (∃ t, step (offering full3 [beat (.command 0x0003)]) = .next t ∧ t.refused = true) ∧
    (∃ t, step (offering off [beat (.command 0x0000)]) = .next t ∧ t.refused = true) ∧
    (∃ t, step { offering off [beat (.command 0x0004)] with refused := true } = .next t) :=
  ⟨⟨_, rfl, rfl⟩, ⟨_, rfl, rfl⟩, _, rfl⟩

/-- Both ways the Relay state changes. -/
theorem witness_OnlyStartAndStopMoveTheRelay :
    (∃ t, exec .start (off.withConnected true) = .next t ∧ t.st ≠ off.st) ∧
    (∃ t, exec .stop full3 = .next t ∧ t.st ≠ full3.st) := ⟨⟨_, rfl, by decide⟩, _, rfl, by decide⟩

/-- Both errors. -/
theorem witness_ErrorsComeFromTheirCommands :
    (∃ t, exec .start off = .next t ∧
      t.history = off.history ++ [.status .command .configurationError]) ∧
    (∃ t, exec .send (full3.withAnswer (some 3)) = .next t ∧
      Event.report .shortWriteError 3 ∈ t.history) := ⟨⟨_, rfl, rfl⟩, _, rfl, by decide⟩

theorem witness_HoldsAreLiftedOnlyByTheirEvents :
    (∃ t, exec .start (off.withConnected true) = .next t ∧ off.outstanding = none ∧
      (off.withConnected true).trafficReady = false ∧ t.trafficReady = true) ∧
    (∃ t, step (offering (waiting full2 .frameIn) [beat (.ack 3)]) = .next t ∧
      t.outstanding = none) := ⟨⟨_, rfl, by decide, by decide, by decide⟩, _, rfl, by decide⟩

/-- Held by an outstanding write (TEVENT's word), held in `UNINIT`, taken on the event port while a write
is outstanding, taken in `READY`, and an unanswered SEND taken. -/
theorem witness_OfferedCommandIsTakenUnlessHeld :
    (∀ x ∈ [(waiting full2 .frameIn, beat (.command 0x0107), Instr.tevent 1, Port.command),
        (off, beat (.rxByte 5), .feedByte 5, .streamReceive),
        (waiting full2 .frameIn, beat (.event 1), .tevent 1, .transportEvent),
        (full3, beat (.command 0x1301), .feedByte 0x13, .command),
        (full3, beat .frameIn, .send, .frameIn)],
      (offering x.1 [x.2.1]).Inv ∧ (offering x.1 [x.2.1]).pending = x.2.1 :: [] ∧
      x.2.1.command? = some x.2.2.1 ∧ x.2.1.port? = some x.2.2.2) ∧
    full3.st = .ready ∧ full3.outstanding = none ∧ (beat .frameIn).draws.ackCount = none := by decide

theorem witness_DutifulEnvironmentIsNeverRefused :
    (offering off [beat (.command 0x0003)]).Inv ∧ off.refused = false ∧
    off.dutiful (beat (.command 0x0003)) = true ∧
    (waiting full2 .command).dutiful (beat (.ack 1)) = true := by decide

theorem witness_ChunkClosedForm :
    full3.st = .ready ∧ full3.outstanding = none ∧ full3.Holds [0x10, 0x11, 0x12] ∧
    [0x10, 0x11, 0x12].length < full3.frameSize ∧
    [beat (.rxByte 0x13), beat (.command 0x1401)].map Beat.fed? = ([0x13, 0x14] : List Byte).map some := by
  decide

theorem witness_OnlyTheBytesFedMatter :
    full3.st = .ready ∧ full3.outstanding = none ∧ full3.Holds [0x10, 0x11, 0x12] ∧
    [0x10, 0x11, 0x12].length < full3.frameSize ∧
    (∀ b ∈ [beat (.rxByte 0x13)], b.isTraffic = true) ∧
    (∀ b ∈ [(⟨.frameIn, ⟨false, 7, some 3⟩⟩ : Beat), beat (.event 0), beat (.command 0x1301)],
      b.isTraffic = true) ∧
    fedBytes [beat (.rxByte 0x13)] =
      fedBytes [⟨.frameIn, ⟨false, 7, some 3⟩⟩, beat (.event 0), beat (.command 0x1301)] := by decide

/-- Each of the four length resets, with traffic of fewer than `N` bytes and of `N` bytes after it. -/
theorem witness_LengthResetForgetsThePartialFrame :
    full3.outstanding = none ∧
    (∃ u, exec .reset full3 = .next u ∧ u.st = .ready) ∧
    (∃ u, exec .restore full3 = .next u ∧ u.st = .ready) ∧
    (off.st = .uninit ∧ ∃ u, exec .start (off.withConnected true) = .next u ∧ u.st = .ready) ∧
    (∃ m u, exec .stop full3 = .next m ∧ exec .start (m.withConnected true) = .next u ∧
      u.st = .ready) ∧
    (∀ b ∈ feedBeats [1, 2, 3, 4], b.isTraffic = true) ∧
    (fedBytes (feedBeats [1, 2, 3])).length < full3.frameSize ∧
    (fedBytes (feedBeats [1, 2, 3, 4])).length = full3.frameSize :=
  ⟨by decide, ⟨_, rfl, rfl⟩, ⟨_, rfl, rfl⟩, ⟨by decide, _, rfl, rfl⟩, ⟨_, _, rfl, rfl, rfl⟩,
    by decide, by decide, by decide⟩

/-- Different stale cells, and a run that drains over them. -/
theorem witness_StaleCellsAreHidden :
    State.StaleAlike (offering full2 [beat (.rxByte 1), beat (.rxByte 2)])
      ((offering full2 [beat (.rxByte 1), beat (.rxByte 2)]).setBuf
        [(0, 0x10), (1, 0x11), (2, 0xEE), (3, 0xFF)]) ∧
    ∃ t, run 2 (offering full2 [beat (.rxByte 1), beat (.rxByte 2)]) = .next t := ⟨by decide, _, rfl⟩

/-- `READY` (traffic performed, START refused) and `UNINIT` (traffic held, START performed). -/
theorem witness_BlockRefinesAbstractRelay :
    (full3.withAnswer (some 3)).Inv ∧ (full3.withAnswer (some 3)).outstanding = none ∧
    (full3.withAnswer (some 3)).Holds [0x10, 0x11, 0x12] ∧
    (full3.withAnswer (some 3)).draws.ackCount = some 3 ∧
    (off.withAnswer (some 4)).Inv ∧ (off.withAnswer (some 4)).outstanding = none ∧
    (off.withAnswer (some 4)).Holds [] ∧ (off.withAnswer (some 4)).draws.ackCount = some 4 := by decide

end Sys2Proof.Tests
end

section
/-! SUPPORT. The proofs about the scope rules of 00_scope.md: no command stops in a state that meets the
invariant (R9), and SEND is atomic (R8). -/

namespace Sys2Proof.Proofs

open Sys2Proof Sys2Proof.Machine

section Answers

variable {s : State}

/-! ## Under the invariant every command answers (R9, R27, R179) -/

/-- Taking a beat changes only the environment's fields, of which the invariant says nothing. -/
theorem inv_accept (via : Port) (d : Draws) (rest : List Beat) (inv : s.Inv) :
    (s.accept via d rest).Inv := inv

/-- The whole accumulator is readable as soon as each of its cells holds a byte. -/
theorem memRead_isOk (filled : ∀ k < s.cfg.frameSize, (s.buf.read k).isSome = true) :
    ∃ f, s.memRead = .ok f := by
  obtain ⟨f, hf⟩ := readCells_isOk s.buf 0 s.cfg.frameSize (by simpa using filled)
  exact ⟨f, by simp [State.memRead, hf]⟩

/-- Under the invariant the byte that fills the accumulator leaves no cell without a value, so the drain's
read cannot fault. -/
theorem memRead_isOk_of_filling (b : Byte) (inv : s.Inv) (full : s.len + 1 = s.cfg.frameSize) :
    ∃ f, (s.setBuf (s.buf.write s.len b)).memRead = .ok f := by
  obtain ⟨-, -, -, below, -⟩ := inv
  refine memRead_isOk fun k hk => ?_
  rw [setBuf_cfg] at hk
  rw [setBuf_buf, read_write]
  split
  · rfl
  · next other => exact below k (by omega)

theorem execFeedByte_answers (b : Byte) (inv : s.Inv) : ∃ t, execFeedByte b s = .next t := by
  have ⟨(bound : s.len < s.cfg.frameSize), _⟩ := inv
  rcases execFeedByte_cases b s with
    ⟨-, held⟩ | ⟨-, -, stored⟩ | ⟨_, -, -, -, drained⟩ | ⟨r, -, full, unread, -⟩ | ⟨-, beyond, -⟩
  · exact ⟨_, held⟩
  · exact ⟨_, stored⟩
  · exact ⟨_, drained⟩
  · obtain ⟨f, read⟩ := memRead_isOk_of_filling b inv full
    simp [read] at unread
  · omega

/-- FEED_BYTE alone can fault; every other command answers a next state in any state. -/
theorem exec_answers (i : Instr) (inv : s.Inv) : ∃ t, exec i s = .next t := by
  cases i with
  | feedByte b => exact execFeedByte_answers b inv
  | reset => exact ⟨_, execReset_eq s⟩
  | start => exact ⟨_, execStart_eq s⟩
  | stop => exact ⟨_, execStop_eq s⟩
  | restore => exact ⟨_, execRestore_eq s⟩
  | send => exact ⟨_, execSend_eq s⟩
  | tevent tag => exact ⟨_, execTevent_eq tag s⟩

/-! ## Under the invariant only an unsolicited acknowledge stops a step -/

theorem offerWord_answers (w : Word) (d : Draws) (rest : List Beat) (inv : s.Inv) :
    ∃ t, offerWord w d rest s = .next t := by
  unfold offerWord
  split
  · split
    · next i _ => exact exec_answers i (inv_accept .command d rest inv)
    · exact ⟨_, rfl⟩
  · exact ⟨_, rfl⟩

theorem offerBeat_answers (ready : Bool) (via : Port) (i : Instr) (d : Draws) (rest : List Beat)
    (inv : s.Inv) : ∃ t, offerBeat ready via i d rest s = .next t := by
  cases ready with
  | false => exact ⟨s, rfl⟩
  | true => exact exec_answers i (inv_accept via d rest inv)

theorem offerAck_of_outstanding {via : Port} (count : Nat) (rest : List Beat)
    (waits : s.outstanding = some via) :
    offerAck count rest s =
      .next ((s.setPending rest).finishWrite via (countOfBus s.cfg count)) := by
  simp [offerAck, waits]

theorem offerAck_of_writeFree (count : Nat) (rest : List Beat) (free : s.outstanding = none) :
    offerAck count rest s = .refused .unsolicitedAck := by
  simp [offerAck, free]

/-- A step with the beat `b` offered stops only where `b` is an acknowledge that no write awaits. -/
theorem perform_answers_or_unsolicitedAck (b : Beat) (rest : List Beat) (inv : s.Inv) :
    (∃ t, perform b rest s = .next t) ∨
      (perform b rest s = .refused .unsolicitedAck ∧ s.outstanding = none ∧
        ∃ c, b.offer = .ack c) := by
  unfold perform
  cases b.offer with
  | command w => exact .inl (offerWord_answers w b.draws rest inv)
  | rxByte c => exact .inl (offerBeat_answers _ _ (.feedByte c) b.draws rest inv)
  | event tag => exact .inl (offerBeat_answers _ _ (.tevent tag) b.draws rest inv)
  | frameIn => exact .inl (offerBeat_answers _ _ .send b.draws rest inv)
  | ack c =>
    cases free : s.outstanding with
    | none => exact .inr ⟨offerAck_of_writeFree c rest free, rfl, c, rfl⟩
    | some via => exact .inl ⟨_, offerAck_of_outstanding c rest free⟩

end Answers

/-- Settles O37: `exec_answers` for the commands, and for a step the case split on the beat offered. -/
theorem noCommandStopsUnderInvariant : Obligations.NoCommandStopsUnderInvariant := by
  intro s inv
  refine ⟨fun i => exec_answers i inv, ?_⟩
  cases offered : s.pending with
  | nil => exact .inl ⟨s, step_nil offered⟩
  | cons b rest =>
    rcases perform_answers_or_unsolicitedAck b rest inv with ⟨t, answered⟩ | ⟨stopped, free, c, ack⟩
    · exact .inl ⟨t, (step_cons offered).trans answered⟩
    · refine .inr ⟨(step_cons offered).trans stopped, free, c, b.draws, rest, ?_⟩
      rw [← ack]

section Atomic

variable {s t u : State}

/-! ## The state under `withAnswer` -/

@[simp] theorem withAnswer_cfg (a : Option Nat) : (s.withAnswer a).cfg = s.cfg := rfl
@[simp] theorem withAnswer_st (a : Option Nat) : (s.withAnswer a).st = s.st := rfl
@[simp] theorem withAnswer_len (a : Option Nat) : (s.withAnswer a).len = s.len := rfl
@[simp] theorem withAnswer_buf (a : Option Nat) : (s.withAnswer a).buf = s.buf := rfl
@[simp] theorem withAnswer_refused (a : Option Nat) : (s.withAnswer a).refused = s.refused := rfl
@[simp] theorem withAnswer_index (a : Option Nat) : (s.withAnswer a).index = s.index := rfl
@[simp] theorem withAnswer_via (a : Option Nat) : (s.withAnswer a).via = s.via := rfl
@[simp] theorem withAnswer_ackCount (a : Option Nat) : (s.withAnswer a).draws.ackCount = a := rfl
@[simp] theorem withAnswer_trafficReady (a : Option Nat) :
    (s.withAnswer a).trafficReady = s.trafficReady := rfl
@[simp] theorem withAnswer_frameOperand (a : Option Nat) :
    (s.withAnswer a).frameOperand = s.frameOperand := rfl

/-! ## SEND with and without an answer -/

/-- SEND, unanswered, in a Relay that relays: the frame is written and the write waits (R153). -/
theorem exec_send_unanswered (ready : s.trafficReady = true) :
    exec .send (s.withAnswer none) =
      .next (((s.withAnswer none).emit (.txWrite s.frameOperand)).setOutstanding (some s.via)) := by
  refine (execSend_eq _).trans ?_
  simp [ready]

/-- SEND, answered at once: the frame is written and the write finishes (R150). -/
theorem exec_send_answered (c : Nat) (ready : s.trafficReady = true) :
    exec .send (s.withAnswer (some c)) =
      .next (((s.withAnswer (some c)).emit (.txWrite s.frameOperand)).finishWrite s.via
        (countOfBus s.cfg c)) := by
  refine (execSend_eq _).trans ?_
  simp [ready]

/-! ## Transport events between the write and its acknowledge -/

/-- The beats of transport events, each a tag with its draws (R73). -/
abbrev eventBeats (events : List (Byte × Draws)) : List Beat :=
  events.map fun e => ⟨.event e.1, e.2⟩

/-- `t` is what `n` commands without any effect but an invisible status make of `s`: only the index, the
invisible part of the history and the environment's fields may differ. -/
structure SilentlyPassed (n : Nat) (s t : State) : Prop where
  cfg : t.cfg = s.cfg
  st : t.st = s.st
  len : t.len = s.len
  buf : t.buf = s.buf
  outstanding : t.outstanding = s.outstanding
  refused : t.refused = s.refused
  visible : visibleEvents t.history = visibleEvents s.history
  index : t.index = s.index + n

theorem SilentlyPassed.refl (s : State) : SilentlyPassed 0 s s :=
  ⟨rfl, rfl, rfl, rfl, rfl, rfl, rfl, rfl⟩

theorem SilentlyPassed.trans {m n : Nat} (first : SilentlyPassed m s t) (second : SilentlyPassed n t u) :
    SilentlyPassed (m + n) s u where
  cfg := second.cfg.trans first.cfg
  st := second.st.trans first.st
  len := second.len.trans first.len
  buf := second.buf.trans first.buf
  outstanding := second.outstanding.trans first.outstanding
  refused := second.refused.trans first.refused
  visible := second.visible.trans first.visible
  index := by rw [second.index, first.index, Nat.add_assoc]

/-- The event port is always ready, so a transport event is taken in every state (R73). -/
theorem step_event {tag : Byte} {d : Draws} {rest : List Beat}
    (offered : s.pending = ⟨.event tag, d⟩ :: rest) :
    step s = .next ((s.accept .transportEvent d rest).completeFor .transportEvent .ok) :=
  step_cons offered

/-- The status of an event port's command is not visible (R71; notes/assumptions/7.md). -/
theorem silentlyPassed_event (d : Draws) (rest : List Beat) :
    SilentlyPassed 1 s ((s.accept .transportEvent d rest).completeFor .transportEvent .ok) where
  cfg := rfl
  st := rfl
  len := rfl
  buf := rfl
  outstanding := rfl
  refused := rfl
  visible := by simp [visibleEvents, Event.visible]
  index := rfl

/-- A run over transport events takes them all and passes silently, whether or not a write waits. -/
theorem run_eventBeats (events : List (Byte × Draws)) (rest : List Beat)
    (offered : s.pending = eventBeats events ++ rest) :
    ∃ t, run events.length s = .next t ∧ SilentlyPassed events.length s t ∧ t.pending = rest := by
  induction events generalizing s with
  | nil => exact ⟨s, rfl, .refl s, offered⟩
  | cons e events ih =>
    obtain ⟨t, ran, passed, left⟩ :=
      ih (s := (s.accept .transportEvent e.2 (eventBeats events ++ rest)).completeFor
        .transportEvent .ok) rfl
    refine ⟨t, (run_succ _ (step_event offered)).trans ran, ?_, left⟩
    rw [List.length_cons, Nat.add_comm]
    exact (silentlyPassed_event _ _).trans passed

/-- The acknowledge of a waiting write finishes it (R153). -/
theorem step_ack {c : Nat} {d : Draws} {rest : List Beat} {via : Port}
    (offered : s.pending = ⟨.ack c, d⟩ :: rest) (waits : s.outstanding = some via) :
    step s = .next ((s.setPending rest).finishWrite via (countOfBus s.cfg c)) :=
  (step_cons offered).trans (offerAck_of_outstanding c rest waits)

/-- What a finished write shows depends on the configuration, the port and the count alone. -/
theorem visibleEvents_finishWrite_congr (via : Port) (n : Nat) (cfg : t.cfg = s.cfg)
    (visible : visibleEvents t.history = visibleEvents s.history) :
    visibleEvents (t.finishWrite via n).history = visibleEvents (s.finishWrite via n).history := by
  simp [finishWrite_history, cfg, visible]

end Atomic

/-- Settles O27: the events between the write and its acknowledge pass silently, by induction over them
(`run_eventBeats`), so the acknowledge finishes the write as an answer within the command does. -/
theorem lateAnswerEqualsImmediateAnswer : Obligations.LateAnswerEqualsImmediateAnswer := by
  intro s c events d rest st_ready free offered
  have ready : s.trafficReady = true := trafficReady_iff.2 ⟨st_ready, free⟩
  obtain ⟨m, ran, passed, left⟩ := run_eventBeats
    (s := ((s.withAnswer none).emit (.txWrite s.frameOperand)).setOutstanding (some s.via))
    events (⟨.ack c, d⟩ :: rest) offered
  have acked := step_ack left passed.outstanding
  rw [passed.cfg] at acked
  refine ⟨_, _, _, exec_send_unanswered ready, (run_add _ 1 ran).trans (run_succ 0 acked),
    exec_send_answered c ready, ?_, ?_, ?_, ?_, ?_, ?_, ?_, ?_⟩
  · exact visibleEvents_finishWrite_congr s.via _ passed.cfg passed.visible
  · simpa using passed.st
  · simpa using passed.len
  · simpa using passed.buf
  · simp
  · simpa using passed.refused
  · simp [passed.index, Nat.add_right_comm]
  · simp

end Sys2Proof.Proofs
end

section
/-! SUPPORT. The proofs about the state of 10_state.md: its invariant (R22 to R28), its stale cells (R29),
its output history and refusal mark (R34, R35), its faults (R24, R179), its widths (R23), and the block as
a refinement of the abstract relay `(st, P)` (R27, R181). -/

namespace Sys2Proof.Proofs

open Sys2Proof Sys2Proof.Machine

section StepCases

variable {s t : State}

/-! ## What a step can do -/

/-- Every way in which a step can answer `t` from `s`, so that a fact about steps is a fact about the
commands and the two beats that run none: a reserved word and an acknowledge. -/
inductive StepCase (s : State) : State → Prop
  /-- Nothing is offered, or what is offered is held. -/
  | unchanged : StepCase s s
  /-- The beat offered requests a command, which is taken and answers. -/
  | performed {b : Beat} {rest : List Beat} {i : Instr} {t : State} (via : Port)
      (offered : s.pending = b :: rest) (requests : b.command? = some i)
      (answers : exec i (s.accept via b.draws rest) = .next t) : StepCase s t
  /-- A reserved word is taken and refused (R80). -/
  | refusedWord {w : Word} {d : Draws} {rest : List Beat}
      (offered : s.pending = ⟨.command w, d⟩ :: rest) (free : s.outstanding = none)
      (reserved : legalWord w = false) : StepCase s (s.accept .command d rest).refuse
  /-- An acknowledge finishes the write that waits for it (R153). -/
  | acknowledged {c : Nat} {d : Draws} {rest : List Beat} {via : Port}
      (offered : s.pending = ⟨.ack c, d⟩ :: rest) (waits : s.outstanding = some via) :
      StepCase s ((s.setPending rest).finishWrite via (countOfBus s.cfg c))

theorem legalWord_eq_false_iff {w : Word} : legalWord w = false ↔ ∃ r, decode w = .error r := by
  cases h : decode w <;> simp [legalWord, h]

/-- A reserved word is taken exactly when no write is outstanding (R71, R153). -/
theorem cmdReady_of_reserved {w : Word} (reserved : legalWord w = false) :
    s.cmdReady w = s.writeFree := by
  obtain ⟨r, hr⟩ := legalWord_eq_false_iff.1 reserved
  simp [State.cmdReady, hr]

theorem cmdReady_of_start {w : Word} (start : decode w = .ok .start) : s.cmdReady w = s.writeFree := by
  simp [State.cmdReady, start]

theorem stepCase_offerWord {w : Word} {d : Draws} {rest : List Beat}
    (offered : s.pending = ⟨.command w, d⟩ :: rest) (answers : offerWord w d rest s = .next t) :
    StepCase s t := by
  unfold offerWord at answers
  split at answers
  · next ready =>
    split at answers
    · next i hi => exact .performed .command offered (by simp [Beat.command?, hi]) answers
    · next r hr =>
      have reserved : legalWord w = false := legalWord_eq_false_iff.2 ⟨r, hr⟩
      rw [cmdReady_of_reserved reserved, writeFree_iff] at ready
      cases answers
      exact .refusedWord offered ready reserved
  · cases answers
    exact .unchanged

theorem stepCase_offerBeat {ready : Bool} {via : Port} {i : Instr} {b : Beat} {rest : List Beat}
    (offered : s.pending = b :: rest) (requests : b.command? = some i)
    (answers : offerBeat ready via i b.draws rest s = .next t) : StepCase s t := by
  unfold offerBeat at answers
  split at answers
  · exact .performed via offered requests answers
  · cases answers
    exact .unchanged

theorem stepCase_offerAck {c : Nat} {d : Draws} {rest : List Beat}
    (offered : s.pending = ⟨.ack c, d⟩ :: rest) (answers : offerAck c rest s = .next t) :
    StepCase s t := by
  unfold offerAck at answers
  split at answers
  · next via waits =>
    cases answers
    exact .acknowledged offered waits
  · cases answers

theorem stepCase_of_step (answers : step s = .next t) : StepCase s t := by
  cases offered : s.pending with
  | nil =>
    cases (step_nil offered).symm.trans answers
    exact .unchanged
  | cons b rest =>
    have performs : perform b rest s = .next t := (step_cons offered).symm.trans answers
    obtain ⟨offer, d⟩ := b
    cases offer with
    | command w => exact stepCase_offerWord offered performs
    | rxByte c => exact stepCase_offerBeat offered rfl performs
    | event tag => exact stepCase_offerBeat offered rfl performs
    | frameIn => exact stepCase_offerBeat offered rfl performs
    | ack c => exact stepCase_offerAck offered performs

end StepCases

section Invariant

variable {s t : State}

/-! ## Each operation keeps the invariant (R22 to R28) -/

theorem inv_completeFor (via : Port) (code : Status) (inv : s.Inv) : (s.completeFor via code).Inv := by
  obtain ⟨bound, canonical, inside, below, empty, relays, recorded⟩ := inv
  refine ⟨bound, canonical, inside, below, empty, relays, ?_⟩
  simpa [or_imp, forall_and, Event.wf] using recorded

theorem inv_emit {e : Event} (wf : e.wf s.cfg = true) (inv : s.Inv) : (s.emit e).Inv := by
  obtain ⟨bound, canonical, inside, below, empty, relays, recorded⟩ := inv
  refine ⟨bound, canonical, inside, below, empty, relays, ?_⟩
  simpa [or_imp, forall_and, wf] using recorded

theorem inv_setLen_zero (inv : s.Inv) : (s.setLen 0).Inv := by
  obtain ⟨-, canonical, inside, -, -, relays, recorded⟩ := inv
  exact ⟨s.cfg.frameSize_pos, canonical, inside, by simp, fun _ => rfl, relays, recorded⟩

theorem inv_refuse (inv : s.Inv) : s.refuse.Inv := inv

theorem inv_setSt_ready (inv : s.Inv) : (s.setSt .ready).Inv := by
  obtain ⟨bound, canonical, inside, below, -, -, recorded⟩ := inv
  exact ⟨bound, canonical, inside, below, by simp, by simp, recorded⟩

/-- `UNINIT` is entered with an empty accumulator and no write outstanding (R28, R136). -/
theorem inv_setSt_uninit_setLen_zero (free : s.outstanding = none) (inv : s.Inv) :
    ((s.setSt .uninit).setLen 0).Inv := by
  obtain ⟨-, canonical, inside, -, -, -, recorded⟩ := inv
  exact ⟨s.cfg.frameSize_pos, canonical, inside, by simp, fun _ => rfl, by simp [free], recorded⟩

theorem inv_setOutstanding_none (inv : s.Inv) : (s.setOutstanding none).Inv := by
  obtain ⟨bound, canonical, inside, below, empty, -, recorded⟩ := inv
  exact ⟨bound, canonical, inside, below, empty, by simp, recorded⟩

theorem inv_setOutstanding_some {via : Port} (ready : s.st = .ready) (inv : s.Inv) :
    (s.setOutstanding (some via)).Inv := by
  obtain ⟨bound, canonical, inside, below, empty, -, recorded⟩ := inv
  exact ⟨bound, canonical, inside, below, empty, fun _ => ready, recorded⟩

/-- A store at `len` keeps the cells canonical and inside the accumulator, and what is held below. -/
theorem inv_store (b : Byte) (inv : s.Inv) : (s.setBuf (s.buf.write s.len b)).Inv := by
  obtain ⟨bound, canonical, inside, below, empty, relays, recorded⟩ := inv
  refine ⟨bound, wf_write _ _ _ canonical, fun c listed => ?_, fun i hi => ?_, empty, relays, recorded⟩
  · rcases mem_write _ _ _ c listed with written | old
    · exact written ▸ bound
    · exact inside c old
  · have other : i ≠ s.len := Nat.ne_of_lt hi
    exact (read_write_other s.buf b other).symm ▸ below i hi

/-- The length may grow over a cell that holds a byte, in `READY` and short of `N` (R22, R27). -/
theorem inv_setLen_succ (ready : s.st = .ready) (room : s.len + 1 < s.cfg.frameSize)
    (holds : (s.buf.read s.len).isSome = true) (inv : s.Inv) : (s.setLen (s.len + 1)).Inv := by
  obtain ⟨-, canonical, inside, below, -, relays, recorded⟩ := inv
  refine ⟨room, canonical, inside, fun i hi => ?_, by simp [ready], relays, recorded⟩
  rcases Nat.lt_succ_iff_lt_or_eq.1 hi with held | rfl
  · exact below i held
  · exact holds

theorem inv_finishWrite (via : Port) (count : Nat) (inv : s.Inv) : (s.finishWrite via count).Inv := by
  have done : (s.setOutstanding none).Inv := inv_setOutstanding_none inv
  rw [finishWrite_eq]
  split
  · next short => exact inv_completeFor _ _ (inv_emit (shortWrite_iff.2 short) done)
  · exact inv_completeFor _ _ done

/-! ## Each command and each step keeps the invariant -/

theorem execFeedByte_keeps_inv {b : Byte} (inv : s.Inv) (answers : execFeedByte b s = .next t) :
    t.Inv := by
  have stored := inv_store b inv
  rcases execFeedByte_cases b s with
    ⟨-, held⟩ | ⟨ready, room, grown⟩ | ⟨f, -, -, read, drained⟩ | ⟨r, -, -, -, fault⟩ | ⟨-, -, fault⟩
  · cases held.symm.trans answers
    exact inv
  · cases grown.symm.trans answers
    have holds : ((s.buf.write s.len b).read s.len).isSome = true := by simp [read_write_same]
    exact inv_completeFor _ _ (inv_setLen_succ (trafficReady_iff.1 ready).1 room holds stored)
  · cases drained.symm.trans answers
    have wf : Event.wf s.cfg (.deliver f) = true := by
      simpa [Event.wf, frameWf] using (memRead_eq_ok.1 read).1
    exact inv_completeFor _ _ (inv_setLen_zero (inv_emit wf stored))
  · cases fault.symm.trans answers
  · cases fault.symm.trans answers

theorem execStart_keeps_inv (inv : s.Inv) (answers : execStart s = .next t) : t.Inv := by
  cases (execStart_eq s).symm.trans answers
  split_ifs
  · exact inv_refuse inv
  · exact inv_completeFor _ _ (inv_setLen_zero (inv_setSt_ready inv))
  · exact inv_completeFor _ _ inv
  · exact inv

theorem execStop_keeps_inv (inv : s.Inv) (answers : execStop s = .next t) : t.Inv := by
  cases (execStop_eq s).symm.trans answers
  split
  · next free =>
    exact inv_completeFor _ _ (inv_setSt_uninit_setLen_zero (writeFree_iff.1 free) inv)
  · exact inv

theorem execSend_keeps_inv (inv : s.Inv) (answers : execSend s = .next t) : t.Inv := by
  have wf : Event.wf s.cfg (.txWrite s.frameOperand) = true := by simp [Event.wf, frameWf]
  have wrote := inv_emit wf inv
  cases (execSend_eq s).symm.trans answers
  split
  · next ready =>
    split
    · exact inv_finishWrite _ _ wrote
    · exact inv_setOutstanding_some (trafficReady_iff.1 ready).1 wrote
  · exact inv

theorem resetLength_keeps_inv (inv : s.Inv) :
    (if s.writeFree then (s.setLen 0).completeFor s.via .ok else s).Inv := by
  split
  · exact inv_completeFor _ _ (inv_setLen_zero inv)
  · exact inv

theorem exec_keeps_inv {i : Instr} (inv : s.Inv) (answers : exec i s = .next t) : t.Inv := by
  cases i with
  | feedByte b => exact execFeedByte_keeps_inv inv answers
  | reset =>
    cases (execReset_eq s).symm.trans answers
    exact resetLength_keeps_inv inv
  | start => exact execStart_keeps_inv inv answers
  | stop => exact execStop_keeps_inv inv answers
  | restore =>
    cases (execRestore_eq s).symm.trans answers
    exact resetLength_keeps_inv inv
  | send => exact execSend_keeps_inv inv answers
  | tevent tag =>
    cases (execTevent_eq tag s).symm.trans answers
    exact inv_completeFor _ _ inv

end Invariant

/-- Settles O36: each way a step can answer (`StepCase`) keeps the invariant, the commands by
`exec_keeps_inv`, whose cases are built from one lemma for each operation. -/
theorem stepKeepsInvariant : Obligations.StepKeepsInvariant := by
  intro s t inv answers
  cases stepCase_of_step answers with
  | unchanged => exact inv
  | performed via _ _ performs => exact exec_keeps_inv (inv_accept via _ _ inv) performs
  | refusedWord => exact inv_refuse (inv_accept .command _ _ inv)
  | acknowledged => exact inv_finishWrite _ _ inv

/-- Settles O35: nothing is held, listed or recorded at power-on, and `N` is at least 1. -/
theorem powerOnMeetsInvariant : Obligations.PowerOnMeetsInvariant := by
  intro p
  refine ⟨p.frameSize_pos, rfl, ?_, ?_, fun _ => rfl, ?_, ?_⟩ <;> simp [State.powerOn]

section FeedByte

variable {s : State}

/-! ## FEED_BYTE's three answers, each from its own condition (R100, R101) -/

theorem execFeedByte_held (b : Byte) (idle : s.trafficReady = false) :
    execFeedByte b s = .next s := by
  rw [execFeedByte_eq]
  simp [idle]

theorem execFeedByte_stored (b : Byte) (ready : s.trafficReady = true)
    (room : s.len + 1 < s.cfg.frameSize) :
    execFeedByte b s =
      .next (((s.setBuf (s.buf.write s.len b)).setLen (s.len + 1)).completeFor s.via .ok) := by
  rw [execFeedByte_eq, if_pos ready, if_pos (by omega), if_neg (by omega)]

theorem execFeedByte_drained (b : Byte) {f : Frame} (ready : s.trafficReady = true)
    (full : s.len + 1 = s.cfg.frameSize)
    (read : (s.setBuf (s.buf.write s.len b)).memRead = .ok f) :
    execFeedByte b s =
      .next ((((s.setBuf (s.buf.write s.len b)).emit (.deliver f)).setLen 0).completeFor s.via .ok) := by
  have cells : (s.buf.write s.len b).readCells 0 s.cfg.frameSize = .ok f :=
    (readCells_eq_ok ..).2 (by simpa using memRead_eq_ok.1 read)
  rw [execFeedByte_eq, if_pos ready, if_pos (by omega), if_pos full, cells]

end FeedByte

section StaleCells

variable {s s' t : State}

/-! ## Stale cells (R29) -/

theorem setBuf_finishWrite (m : Memory) (via : Port) (count : Nat) :
    (s.setBuf m).finishWrite via count = (s.finishWrite via count).setBuf m := by
  rw [finishWrite_eq, finishWrite_eq, apply_ite (State.setBuf · m)]
  rfl

/-- States that differ only in stale cells, as an update of one by the other's accumulator. -/
theorem staleAlike_iff :
    s.StaleAlike s' ↔ ∃ m, s' = s.setBuf m ∧ ∀ i < s.len, m.read i = s.buf.read i := by
  constructor
  · rintro ⟨update, alike⟩
    exact ⟨s'.buf, update, alike⟩
  · rintro ⟨m, rfl, alike⟩
    exact ⟨rfl, alike⟩

/-- A part `f` of the step hides stale cells: where it answers, it answers from a state that differs only
in stale cells as well, and the answers differ only so. -/
def HidesStaleCells (f : State → Result) : Prop :=
  ∀ s s' t : State, s.StaleAlike s' → f s = .next t → ∃ t', f s' = .next t' ∧ t.StaleAlike t'

/-- `t` answers `s` whatever the cells hold: `f` neither reads nor writes one, nor raises the length. -/
def IgnoresCells (f : State → Result) (s t : State) : Prop :=
  (∀ m, f (s.setBuf m) = .next (t.setBuf m)) ∧ t.buf = s.buf ∧ t.len ≤ s.len

theorem hidesStaleCells_of_ignoresCells {f : State → Result}
    (ignores : ∀ s t, f s = .next t → IgnoresCells f s t) : HidesStaleCells f := by
  intro s s' t alike answers
  obtain ⟨m, rfl, below⟩ := staleAlike_iff.1 alike
  obtain ⟨answered, buf, len⟩ := ignores s t answers
  refine ⟨_, answered m, staleAlike_iff.2 ⟨m, rfl, fun i hi => ?_⟩⟩
  rw [buf]
  exact below i (hi.trans_le len)

/-- A beat taken before a part of the step exposes no cell. -/
theorem HidesStaleCells.comp_accept {f : State → Result} (hides : HidesStaleCells f)
    (via : Port) (d : Draws) (rest : List Beat) :
    HidesStaleCells fun s => f (s.accept via d rest) := by
  intro s s' t alike answers
  obtain ⟨m, rfl, below⟩ := staleAlike_iff.1 alike
  exact hides (s.accept via d rest) _ t (staleAlike_iff.2 ⟨m, rfl, below⟩) answers

theorem hold_hidesStaleCells : HidesStaleCells hold := by
  rintro s s' t alike ⟨⟩
  exact ⟨s', rfl, alike⟩

theorem refuse_hidesStaleCells : HidesStaleCells fun s => .next s.refuse := by
  rintro s s' t alike ⟨⟩
  obtain ⟨m, rfl, below⟩ := staleAlike_iff.1 alike
  exact ⟨_, rfl, staleAlike_iff.2 ⟨m, rfl, below⟩⟩

/-- A choice by a condition that no cell decides hides stale cells if both branches do. -/
theorem HidesStaleCells.ite {c : State → Bool} {f g : State → Result}
    (ignores : ∀ s m, c (s.setBuf m) = c s) (hf : HidesStaleCells f) (hg : HidesStaleCells g) :
    HidesStaleCells fun s => if c s then f s else g s := by
  intro s s' t alike answers
  have same : c s' = c s := by rw [alike.1, ignores]
  dsimp only at answers ⊢
  rw [same]
  split_ifs at answers ⊢
  · exact hf s s' t alike answers
  · exact hg s s' t alike answers

/-! ### FEED_BYTE overwrites a stale cell before it reads it (R27) -/

/-- A store at `n` leaves memories that read alike below `n` reading alike up to and with `n`. -/
theorem read_write_alike {m m' : Memory} {n : Nat} (b : Byte) (below : ∀ i < n, m'.read i = m.read i) :
    ∀ i < n + 1, (m'.write n b).read i = (m.write n b).read i := by
  intro i hi
  simp only [read_write]
  split
  · rfl
  · exact below i (by omega)

theorem execFeedByte_hidesStaleCells (b : Byte) : HidesStaleCells (execFeedByte b) := by
  intro s s' t alike answers
  obtain ⟨m, rfl, below⟩ := staleAlike_iff.1 alike
  have stored := read_write_alike b below
  rcases execFeedByte_cases b s with
    ⟨idle, held⟩ | ⟨ready, room, grown⟩ | ⟨f, ready, full, read, drained⟩ | ⟨r, -, -, -, fault⟩ |
    ⟨-, -, fault⟩
  · cases held.symm.trans answers
    exact ⟨_, execFeedByte_held b idle, alike⟩
  · cases grown.symm.trans answers
    exact ⟨_, execFeedByte_stored b ready room, staleAlike_iff.2 ⟨m.write s.len b, rfl, stored⟩⟩
  · cases drained.symm.trans answers
    obtain ⟨length, cells⟩ := memRead_eq_ok.1 read
    have read' : ((s.setBuf m).setBuf (m.write s.len b)).memRead = .ok f :=
      memRead_eq_ok.2 ⟨length, fun k hk => (stored k (full ▸ hk)).trans (cells k hk)⟩
    exact ⟨_, execFeedByte_drained b ready full read',
      staleAlike_iff.2 ⟨m.write s.len b, rfl, by simp⟩⟩
  · cases fault.symm.trans answers
  · cases fault.symm.trans answers

/-! ### Every part of a step, and so every run, hides stale cells -/

/-- FEED_BYTE is the only command that reads or writes a cell or raises the length. -/
theorem exec_ignoresCells {i : Instr} (other : ∀ b, i ≠ .feedByte b) (answers : exec i s = .next t) :
    IgnoresCells (exec i) s t := by
  cases i with
  | feedByte b => exact absurd rfl (other b)
  | reset =>
    cases (execReset_eq s).symm.trans answers
    refine ⟨fun m => (execReset_eq _).trans ?_, ?_⟩
    · simp only [apply_ite (State.setBuf · m)]
      rfl
    · split <;> simp
  | start =>
    cases (execStart_eq s).symm.trans answers
    refine ⟨fun m => (execStart_eq _).trans ?_, ?_⟩
    · simp only [apply_ite (State.setBuf · m)]
      rfl
    · split_ifs <;> simp
  | stop =>
    cases (execStop_eq s).symm.trans answers
    refine ⟨fun m => (execStop_eq _).trans ?_, ?_⟩
    · simp only [apply_ite (State.setBuf · m)]
      rfl
    · split <;> simp
  | restore =>
    cases (execRestore_eq s).symm.trans answers
    refine ⟨fun m => (execRestore_eq _).trans ?_, ?_⟩
    · simp only [apply_ite (State.setBuf · m)]
      rfl
    · split <;> simp
  | send =>
    cases (execSend_eq s).symm.trans answers
    refine ⟨fun m => (execSend_eq _).trans ?_, ?_⟩
    · cases answer : s.draws.ackCount <;>
        simp only [setBuf_draws, answer, apply_ite (State.setBuf · m), ← setBuf_finishWrite] <;> rfl
    · split
      · split <;> simp
      · simp
  | tevent tag =>
    cases (execTevent_eq tag s).symm.trans answers
    exact ⟨fun _ => rfl, rfl, le_rfl⟩

theorem exec_hidesStaleCells (i : Instr) : HidesStaleCells (exec i) := by
  cases i with
  | feedByte b => exact execFeedByte_hidesStaleCells b
  | _ => exact hidesStaleCells_of_ignoresCells fun _ _ => exec_ignoresCells (by simp)

theorem offerBeat_hidesStaleCells (ready : State → Bool) (via : Port) (i : Instr) (d : Draws)
    (rest : List Beat) (ignores : ∀ s m, ready (s.setBuf m) = ready s) :
    HidesStaleCells fun s => offerBeat (ready s) via i d rest s :=
  .ite ignores ((exec_hidesStaleCells i).comp_accept via d rest) hold_hidesStaleCells

theorem offerWord_hidesStaleCells (w : Word) (d : Draws) (rest : List Beat) :
    HidesStaleCells (offerWord w d rest) := by
  refine .ite (c := (State.cmdReady · w)) (fun _ _ => rfl) ?_ hold_hidesStaleCells
  cases decode w with
  | ok i => exact (exec_hidesStaleCells i).comp_accept .command d rest
  | error _ => exact refuse_hidesStaleCells.comp_accept .command d rest

theorem offerAck_hidesStaleCells (count : Nat) (rest : List Beat) :
    HidesStaleCells (offerAck count rest) := by
  refine hidesStaleCells_of_ignoresCells fun s t answers => ?_
  cases waits : s.outstanding with
  | none => cases (offerAck_of_writeFree count rest waits).symm.trans answers
  | some via =>
    cases (offerAck_of_outstanding count rest waits).symm.trans answers
    refine ⟨fun m => (offerAck_of_outstanding (s := s.setBuf m) count rest waits).trans ?_, by simp⟩
    exact congrArg _ (setBuf_finishWrite (s := s.setPending rest) m via _)

theorem perform_hidesStaleCells (b : Beat) (rest : List Beat) : HidesStaleCells (perform b rest) := by
  obtain ⟨offer, d⟩ := b
  cases offer with
  | command w => exact offerWord_hidesStaleCells w d rest
  | rxByte c => exact offerBeat_hidesStaleCells State.rxReady _ _ d rest fun _ _ => rfl
  | event tag => exact offerBeat_hidesStaleCells State.evReady _ _ d rest fun _ _ => rfl
  | frameIn => exact offerBeat_hidesStaleCells State.fiReady _ _ d rest fun _ _ => rfl
  | ack count => exact offerAck_hidesStaleCells count rest

theorem step_hidesStaleCells : HidesStaleCells step := by
  intro s s' t alike answers
  have beats : s'.pending = s.pending := by rw [alike.1]; rfl
  cases offered : s.pending with
  | nil =>
    cases (step_nil offered).symm.trans answers
    exact ⟨s', step_nil (beats.trans offered), alike⟩
  | cons b rest =>
    obtain ⟨t', performs, alike'⟩ :=
      perform_hidesStaleCells b rest s s' t alike ((step_cons offered).symm.trans answers)
    exact ⟨t', (step_cons (beats.trans offered)).trans performs, alike'⟩

theorem run_hidesStaleCells (k : Nat) : HidesStaleCells (run k) := by
  induction k with
  | zero => exact hold_hidesStaleCells
  | succ k ih =>
    intro s s' t alike ran
    cases answers : step s with
    | next u =>
      obtain ⟨u', answers', alike'⟩ := step_hidesStaleCells s s' u alike answers
      rw [run_succ k answers] at ran
      rw [run_succ k answers']
      exact ih u u' t alike' ran
    | fault r => simp [run, answers] at ran
    | refused r => simp [run, answers] at ran

end StaleCells

/-- Settles O48: every part of a step hides stale cells (`step_hidesStaleCells`), FEED_BYTE because it
overwrites the cell at `len` before a drain reads it; for runs, by induction on their length. -/
theorem staleCellsAreHidden : Obligations.StaleCellsAreHidden :=
  run_hidesStaleCells

section Refinement

variable {i : Instr} {s u : State} {P : List Byte}

/-! ## The abstract relay `(st, P)` (R27, R181) -/

/-- The block's answer `t` to the command `i` in `s` is the answer of the abstract relay: its next pair,
outputs and status, or its hold or refusal. -/
def AnswersAs (i : Instr) (s t : State) : Option (Abstract × List Event × Status) → Prop
  | some (a, es, code) =>
    t.st = a.st ∧ t.Holds a.held ∧ t.outstanding = none ∧ t.refused = s.refused ∧
    t.history = s.history ++ es ++ [.status s.via code] ∧ t.index = s.index + 1
  | none => if i = .start then t = { s with refused := true, index := s.index + 1 } else t = s

/-- The command `i` in `s` answers as the abstract relay does in the pair `(s.st, P)`. -/
def Refines (i : Instr) (s : State) (P : List Byte) (c : Nat) : Prop :=
  ∃ t, exec i s = .next t ∧
    AnswersAs i s t (Abstract.perform s.cfg ⟨s.st, P⟩ s.draws.connected
      (frameOfBus s.cfg s.draws.fiData) (countOfBus s.cfg c) i)

/-- What a completed command has to show of the state before its status. -/
theorem answersAs_completeFor {a : Abstract} {es : List Event} {code : Status}
    (st : u.st = a.st) (holds : u.Holds a.held) (free : u.outstanding = none)
    (mark : u.refused = s.refused) (history : u.history = s.history ++ es) (index : u.index = s.index) :
    AnswersAs i s (u.completeFor s.via code) (some (a, es, code)) :=
  ⟨st, holds, free, mark, by simp [history], by simp [index]⟩

theorem answersAs_held (other : i ≠ .start) : AnswersAs i s s none := by
  simp [AnswersAs, other]

theorem holds_setLen_zero : (s.setLen 0).Holds [] := ⟨rfl, by simp⟩

/-- The cells after a store at `len` read as the partial frame with the byte appended (R27, R100). -/
theorem read_store_of_holds (b : Byte) (holds : s.Holds P) :
    ∀ k < (P ++ [b]).length, (s.buf.write s.len b).read k = (P ++ [b])[k]? := by
  obtain ⟨length, cells⟩ := holds
  intro k hk
  rw [read_write, length]
  split
  · next last => simp [last]
  · next other =>
    have held : k < P.length := by simp at hk; omega
    rw [cells k held, List.getElem?_append_left held]

theorem feedByte_refines {c : Nat} (b : Byte) (inv : s.Inv) (free : s.outstanding = none)
    (holds : s.Holds P) : Refines (.feedByte b) s P c := by
  have ⟨(bound : s.len < s.cfg.frameSize), _⟩ := inv
  have length : (P ++ [b]).length = s.len + 1 := by simp [holds.1]
  have stored := read_store_of_holds b holds
  cases relay : s.st with
  | uninit =>
    have idle : s.trafficReady = false := by simp [State.trafficReady, relay]
    refine ⟨s, execFeedByte_held b idle, ?_⟩
    simpa [Abstract.perform, relay] using answersAs_held (by simp)
  | ready =>
    have ready : s.trafficReady = true := trafficReady_iff.2 ⟨relay, free⟩
    by_cases full : s.len + 1 = s.cfg.frameSize
    · have read := memRead_of_holds (s := s.setBuf (s.buf.write s.len b)) (length.trans full) stored
      refine ⟨_, execFeedByte_drained b ready full read, ?_⟩
      simp only [Abstract.perform, relay, length, full, if_true]
      exact answersAs_completeFor relay holds_setLen_zero free rfl rfl rfl
    · refine ⟨_, execFeedByte_stored b ready (by omega), ?_⟩
      simp only [Abstract.perform, relay, length, full, if_false]
      exact answersAs_completeFor relay ⟨length.symm, stored⟩ free rfl (by simp) rfl

theorem start_refines {c : Nat} (free : s.outstanding = none) (holds : s.Holds P) :
    Refines .start s P c := by
  have writeFree : s.writeFree = true := writeFree_iff.2 free
  refine ⟨_, execStart_eq s, ?_⟩
  rw [if_pos writeFree]
  cases relay : s.st with
  | ready => simp [Abstract.perform, AnswersAs, State.refuse]
  | uninit =>
    cases connected : s.draws.connected with
    | true =>
      exact answersAs_completeFor rfl holds_setLen_zero free rfl (by simp) rfl
    | false =>
      exact answersAs_completeFor relay holds free rfl (by simp) rfl

theorem send_refines {c : Nat} (free : s.outstanding = none) (holds : s.Holds P)
    (answered : s.draws.ackCount = some c) : Refines .send s P c := by
  cases relay : s.st with
  | uninit =>
    have idle : s.trafficReady = false := by simp [State.trafficReady, relay]
    refine ⟨_, execSend_eq s, ?_⟩
    simpa [Abstract.perform, relay, idle] using answersAs_held (by simp)
  | ready =>
    have ready : s.trafficReady = true := trafficReady_iff.2 ⟨relay, free⟩
    refine ⟨_, execSend_eq s, ?_⟩
    simp only [ready, if_true, answered, finishWrite_eq, Abstract.perform, relay, emit_cfg]
    by_cases short : countOfBus s.cfg c < s.cfg.frameSize
    · simp only [short, if_true]
      exact answersAs_completeFor relay holds rfl rfl (by simp [State.frameOperand]) rfl
    · simp only [short, if_false]
      exact answersAs_completeFor relay holds rfl rfl rfl rfl

theorem exec_refines {c : Nat} (inv : s.Inv) (free : s.outstanding = none) (holds : s.Holds P)
    (answered : s.draws.ackCount = some c) : Refines i s P c := by
  have writeFree : s.writeFree = true := writeFree_iff.2 free
  cases i with
  | feedByte b => exact feedByte_refines b inv free holds
  | reset =>
    refine ⟨_, execReset_eq s, ?_⟩
    rw [if_pos writeFree]
    exact answersAs_completeFor rfl holds_setLen_zero free rfl (by simp) rfl
  | start => exact start_refines free holds
  | stop =>
    refine ⟨_, execStop_eq s, ?_⟩
    rw [if_pos writeFree]
    exact answersAs_completeFor rfl holds_setLen_zero free rfl (by simp) rfl
  | restore =>
    refine ⟨_, execRestore_eq s, ?_⟩
    rw [if_pos writeFree]
    exact answersAs_completeFor rfl holds_setLen_zero free rfl (by simp) rfl
  | send => exact send_refines free holds answered
  | tevent tag =>
    exact ⟨_, execTevent_eq tag s, answersAs_completeFor rfl holds free rfl (by simp) rfl⟩

end Refinement

/-- Settles O49: `exec_refines`, one commuting diagram for each command. -/
theorem blockRefinesAbstractRelay : Obligations.BlockRefinesAbstractRelay :=
  fun _ _ _ _ => exec_refines

section Faults

variable {s : State}

/-! ## The faults (R24, R25, R179) -/

/-- `MemRead` faults exactly on the first cell without a value. -/
theorem memRead_eq_error {r : Fault} :
    s.memRead = .error r ↔
      ∃ j < s.cfg.frameSize, r = .unwrittenCell j ∧ s.buf.read j = none ∧
        ∀ k < j, s.buf.read k ≠ none := by
  have first := readCells_eq_error s.buf 0 s.cfg.frameSize
  simp only [Nat.zero_add, Nat.zero_le, true_and, forall_const] at first
  cases read : s.buf.readCells 0 s.cfg.frameSize with
  | ok f =>
    simp only [State.memRead, frameSize_eq, read, reduceCtorEq, false_iff] at first ⊢
    rintro ⟨j, inside, -, unwritten, written⟩
    exact first j ⟨inside, unwritten, written⟩
  | error i =>
    simp only [State.memRead, frameSize_eq, read, Except.error.injEq] at first ⊢
    constructor
    · rintro rfl
      obtain ⟨inside, unwritten, written⟩ := (first i).1 rfl
      exact ⟨i, inside, rfl, unwritten, written⟩
    · rintro ⟨j, inside, rfl, unwritten, written⟩
      rw [(first j).2 ⟨inside, unwritten, written⟩]

/-- After a store into the last cell, `MemRead` faults exactly on the first unwritten cell below it. -/
theorem memRead_store_eq_error {b : Byte} {r : Fault} (full : s.len + 1 = s.cfg.frameSize) :
    (s.setBuf (s.buf.write s.len b)).memRead = .error r ↔
      ∃ j < s.len, r = .unwrittenCell j ∧ s.buf.read j = none ∧ ∀ k < j, s.buf.read k ≠ none := by
  rw [memRead_eq_error, setBuf_cfg, setBuf_buf]
  constructor
  · rintro ⟨j, inside, name, unwritten, written⟩
    have other : j ≠ s.len := by
      rintro rfl
      simp [read_write_same] at unwritten
    have below : j < s.len := by omega
    rw [read_write_other _ _ other] at unwritten
    refine ⟨j, below, name, unwritten, fun k hk => ?_⟩
    rw [← read_write_other s.buf b (hk.trans below).ne]
    exact written k hk
  · rintro ⟨j, below, name, unwritten, written⟩
    refine ⟨j, by omega, name, ?_, fun k hk => ?_⟩
    · rwa [read_write_other _ _ below.ne]
    · rw [read_write_other _ _ (hk.trans below).ne]
      exact written k hk

/-- FEED_BYTE faults exactly where its store or the drain's read does. -/
theorem execFeedByte_eq_fault {b : Byte} {r : Fault} :
    execFeedByte b s = .fault r ↔
      s.trafficReady = true ∧
        ((s.cfg.frameSize ≤ s.len ∧ r = .noSuchCell s.len) ∨
         (s.len + 1 = s.cfg.frameSize ∧ (s.setBuf (s.buf.write s.len b)).memRead = .error r)) := by
  rcases execFeedByte_cases b s with
    ⟨idle, e⟩ | ⟨ready, room, e⟩ | ⟨f, ready, full, read, e⟩ | ⟨r', ready, full, unread, e⟩ |
    ⟨ready, beyond, e⟩
  · simp [e, idle]
  · have inside : ¬ s.cfg.frameSize ≤ s.len := by omega
    simp [e, inside, room.ne]
  · have inside : ¬ s.cfg.frameSize ≤ s.len := by omega
    simp [e, inside, read]
  · have inside : ¬ s.cfg.frameSize ≤ s.len := by omega
    simp [e, ready, inside, full, unread]
  · have past : s.len + 1 ≠ s.cfg.frameSize := by omega
    simp [e, ready, beyond, past, eq_comm]

theorem exec_ne_fault {i : Instr} {r : Fault} (other : ∀ b, i ≠ .feedByte b) : exec i s ≠ .fault r := by
  intro faults
  cases i with
  | feedByte b => exact other b rfl
  | reset => cases (execReset_eq s).symm.trans faults
  | start => cases (execStart_eq s).symm.trans faults
  | stop => cases (execStop_eq s).symm.trans faults
  | restore => cases (execRestore_eq s).symm.trans faults
  | send => cases (execSend_eq s).symm.trans faults
  | tevent tag => cases (execTevent_eq tag s).symm.trans faults

end Faults

/-- Settles O16: FEED_BYTE alone can fault (`exec_ne_fault`), and it faults where its store or the
drain's read does (`execFeedByte_eq_fault`). -/
theorem faultsAreMissingCells : Obligations.FaultsAreMissingCells := by
  intro i s r
  by_cases feeds : ∃ b, i = .feedByte b
  · obtain ⟨b, rfl⟩ := feeds
    have faults : exec (.feedByte b) s = .fault r ↔ _ := execFeedByte_eq_fault
    rw [faults, trafficReady_iff, and_assoc]
    simp only [Instr.feedByte.injEq, exists_eq', true_and, frameSize_eq]
    exact and_congr_right fun _ => and_congr_right fun _ =>
      or_congr Iff.rfl (and_congr_right memRead_store_eq_error)
  · simp [feeds, exec_ne_fault fun b e => feeds ⟨b, e⟩]

section Widths

/-! ## The widths (R23) -/

theorem ceilLog2_eq_clog (n : Nat) : ceilLog2 n = Nat.clog 2 n := by
  unfold ceilLog2
  split
  · next small => rw [Nat.clog_of_right_le_one small]
  · next large =>
    refine eq_of_forall_ge_iff fun k => ?_
    rw [Nat.clog_le_iff_le_pow one_lt_two, Nat.succ_le_iff, Nat.log2_lt (by omega)]
    omega

theorem le_two_pow_ceilLog2 (n : Nat) : n ≤ 2 ^ ceilLog2 n :=
  ceilLog2_eq_clog n ▸ Nat.le_pow_clog one_lt_two n

theorem ceilLog2_pos {n : Nat} (two : 2 ≤ n) : 1 ≤ ceilLog2 n :=
  ceilLog2_eq_clog n ▸ Nat.clog_pos one_lt_two two

/-- One bit fewer does not do. -/
theorem two_pow_pred_ceilLog2_lt {n : Nat} (two : 2 ≤ n) : 2 ^ (ceilLog2 n - 1) < n :=
  ceilLog2_eq_clog n ▸ Nat.pow_pred_clog_lt_self one_lt_two two

theorem lenWidth_eq_ceilLog2 {p : Params} (two : 2 ≤ p.frameSize) :
    lenWidth p = ceilLog2 p.frameSize :=
  max_eq_right (ceilLog2_pos two)

theorem lt_two_pow_lenWidth {p : Params} {n : Nat} (below : n < p.frameSize) : n < 2 ^ lenWidth p :=
  calc n < p.frameSize := below
    _ ≤ 2 ^ ceilLog2 p.frameSize := le_two_pow_ceilLog2 _
    _ ≤ 2 ^ lenWidth p := Nat.pow_le_pow_right two_pos (le_max_right ..)

end Widths

/-- Settles O33: `ceilLog2` is the ceiling of the logarithm to base 2 (`ceilLog2_eq_clog`). -/
theorem widthsHoldTheirRanges : Obligations.WidthsHoldTheirRanges := by
  refine ⟨fun p n => lt_two_pow_lenWidth, fun p n upTo => ?_, fun p two => ?_, fun p one => ?_,
    fun p => ?_, fun p => rfl, by decide, by decide, rfl⟩
  · exact (Nat.lt_succ_of_le upTo).trans_le (le_two_pow_ceilLog2 _)
  · rw [lenWidth_eq_ceilLog2 two]
    exact two_pow_pred_ceilLog2_lt two
  · rw [lenWidth, one]
    rfl
  · have two : 2 ≤ p.frameSize + 1 := Nat.succ_le_succ p.frameSize_pos
    exact ⟨ceilLog2_pos two, two_pow_pred_ceilLog2_lt two⟩

section History

variable {s t u : State}

/-! ## The output history and the configuration (R32, R34) -/

/-- From `s` to `t` the history is appended to, the configuration stays, and the index moves by at most
one. -/
structure Grows (s t : State) : Prop where
  history : ∃ es, t.history = s.history ++ es
  cfg : t.cfg = s.cfg
  index_le : s.index ≤ t.index
  index_le_succ : t.index ≤ s.index + 1

theorem Grows.refl (s : State) : Grows s s := ⟨⟨[], by simp⟩, rfl, le_rfl, Nat.le_succ _⟩

theorem Grows.refuse (s : State) : Grows s s.refuse :=
  ⟨⟨[], by simp⟩, rfl, Nat.le_succ _, le_rfl⟩

/-- A command that completes appends what it emitted and its status. -/
theorem Grows.completeFor {es : List Event} (via : Port) (code : Status) (cfg : u.cfg = s.cfg)
    (history : u.history = s.history ++ es) (index : u.index = s.index) :
    Grows s (u.completeFor via code) :=
  ⟨⟨es ++ [.status via code], by simp [history]⟩, cfg, by simp [index], by simp [index]⟩

theorem Grows.finishWrite {es : List Event} (via : Port) (count : Nat) (cfg : u.cfg = s.cfg)
    (history : u.history = s.history ++ es) (index : u.index = s.index) :
    Grows s (u.finishWrite via count) :=
  ⟨⟨_, by rw [finishWrite_history, history, List.append_assoc, List.append_assoc]⟩, by simp [cfg],
    by simp [index], by simp [index]⟩

/-- Taking a beat leaves the history, the configuration and the index as they are. -/
theorem Grows.of_accept {via : Port} {d : Draws} {rest : List Beat}
    (grows : Grows (s.accept via d rest) t) : Grows s t :=
  ⟨grows.history, grows.cfg, grows.index_le, grows.index_le_succ⟩

theorem execFeedByte_grows {b : Byte} (answers : execFeedByte b s = .next t) : Grows s t := by
  rcases execFeedByte_cases b s with
    ⟨-, e⟩ | ⟨-, -, e⟩ | ⟨f, -, -, -, e⟩ | ⟨r, -, -, -, e⟩ | ⟨-, -, e⟩ <;>
  cases e.symm.trans answers
  · exact .refl s
  · exact .completeFor (es := []) _ _ rfl (by simp) rfl
  · exact .completeFor _ _ rfl rfl rfl

theorem exec_grows {i : Instr} (answers : exec i s = .next t) : Grows s t := by
  cases i with
  | feedByte b => exact execFeedByte_grows answers
  | reset =>
    cases (execReset_eq s).symm.trans answers
    split
    · exact .completeFor (es := []) _ _ rfl (by simp) rfl
    · exact .refl s
  | start =>
    cases (execStart_eq s).symm.trans answers
    split_ifs
    · exact .refuse s
    · exact .completeFor (es := []) _ _ rfl (by simp) rfl
    · exact .completeFor (es := []) _ _ rfl (by simp) rfl
    · exact .refl s
  | stop =>
    cases (execStop_eq s).symm.trans answers
    split
    · exact .completeFor (es := []) _ _ rfl (by simp) rfl
    · exact .refl s
  | restore =>
    cases (execRestore_eq s).symm.trans answers
    split
    · exact .completeFor (es := []) _ _ rfl (by simp) rfl
    · exact .refl s
  | send =>
    cases (execSend_eq s).symm.trans answers
    split
    · split
      · exact .finishWrite _ _ rfl rfl rfl
      · exact ⟨⟨_, rfl⟩, rfl, le_rfl, Nat.le_succ _⟩
    · exact .refl s
  | tevent tag =>
    cases (execTevent_eq tag s).symm.trans answers
    exact .completeFor (es := []) _ _ rfl (by simp) rfl

theorem step_grows (answers : step s = .next t) : Grows s t := by
  cases stepCase_of_step answers with
  | unchanged => exact .refl s
  | performed _ _ _ performs => exact .of_accept (exec_grows performs)
  | refusedWord => exact .of_accept (.refuse _)
  | acknowledged => exact .finishWrite (es := []) _ _ rfl (by simp) rfl

end History

/-- Settles O38: every command grows the state (`exec_grows`), and so every step. -/
theorem historyOnlyGrows : Obligations.HistoryOnlyGrows := by
  intro s t answers
  obtain ⟨history, cfg, index_le, index_le_succ⟩ := step_grows answers
  exact ⟨history, cfg, index_le, index_le_succ⟩

section RefusalMark

variable {s t : State}

/-! ## The refusal mark (R35) -/

/-- The beat offered is one that the block refuses: a reserved word, or the word of START in `READY`. -/
def RefusesBeat (s : State) : Prop :=
  s.outstanding = none ∧ ∃ w d rest, s.pending = ⟨.command w, d⟩ :: rest ∧
    (legalWord w = false ∨ (decode w = .ok .start ∧ s.st = .ready))

theorem exec_start_of_ready (ready : s.st = .ready) (free : s.outstanding = none) :
    exec .start s = .next s.refuse := by
  refine (execStart_eq s).trans ?_
  rw [if_pos (writeFree_iff.2 free), if_pos ready]

/-- Among the commands START in `READY` alone sets the mark, and none clears it. -/
theorem exec_refused_iff {i : Instr} (answers : exec i s = .next t) :
    t.refused = true ↔
      s.refused = true ∨ (i = .start ∧ s.st = .ready ∧ s.outstanding = none) := by
  cases i with
  | feedByte b =>
    rcases execFeedByte_cases b s with
      ⟨-, e⟩ | ⟨-, -, e⟩ | ⟨f, -, -, -, e⟩ | ⟨r, -, -, -, e⟩ | ⟨-, -, e⟩ <;>
    cases e.symm.trans answers <;> simp
  | reset =>
    cases (execReset_eq s).symm.trans answers
    split <;> simp
  | start =>
    cases (execStart_eq s).symm.trans answers
    rw [← writeFree_iff]
    split_ifs with free ready connected <;> simp [*]
  | stop =>
    cases (execStop_eq s).symm.trans answers
    split <;> simp
  | restore =>
    cases (execRestore_eq s).symm.trans answers
    split <;> simp
  | send =>
    cases (execSend_eq s).symm.trans answers
    split
    · split <;> simp
    · simp
  | tevent tag =>
    cases (execTevent_eq tag s).symm.trans answers
    simp

/-- START comes by the command port alone (R71). -/
theorem command?_eq_start {b : Beat} (requests : b.command? = some .start) :
    ∃ w, b.offer = .command w ∧ decode w = .ok .start := by
  unfold Beat.command? at requests
  split at requests
  · next w offer =>
    split at requests
    · next i hi => exact ⟨w, offer, hi.trans (congrArg _ (Option.some.inj requests))⟩
    · cases requests
  all_goals cases requests

/-- A beat that the block refuses makes the step set the mark. -/
theorem step_refused_of_refusesBeat (answers : step s = .next t) (refuses : RefusesBeat s) :
    t.refused = true := by
  obtain ⟨free, w, d, rest, offered, reserved | ⟨start, ready⟩⟩ := refuses
  · obtain ⟨r, hr⟩ := legalWord_eq_false_iff.1 reserved
    have taken : s.cmdReady w = true := (cmdReady_of_reserved reserved).trans (writeFree_iff.2 free)
    have refused : step s = .next (s.accept .command d rest).refuse :=
      (step_cons offered).trans (by simp [perform, offerWord, taken, hr])
    cases refused.symm.trans answers
    rfl
  · have taken : s.cmdReady w = true := (cmdReady_of_start start).trans (writeFree_iff.2 free)
    have refused : step s = .next (s.accept .command d rest).refuse :=
      (step_cons offered).trans (by
        simpa [perform, offerWord, taken, start] using
          exec_start_of_ready (s := s.accept .command d rest) ready free)
    cases refused.symm.trans answers
    rfl

theorem step_keeps_mark (answers : step s = .next t) (mark : s.refused = true) : t.refused = true := by
  cases stepCase_of_step answers with
  | unchanged => exact mark
  | performed _ _ _ performs => exact (exec_refused_iff performs).2 (.inl mark)
  | refusedWord => rfl
  | acknowledged => simpa using mark

/-- A step sets the mark only where the block refuses the beat offered. -/
theorem refusesBeat_of_step_refused (answers : step s = .next t) (clear : s.refused = false)
    (mark : t.refused = true) : RefusesBeat s := by
  cases stepCase_of_step answers with
  | unchanged => simp [clear] at mark
  | @performed b rest i t via offered requests performs =>
    rcases (exec_refused_iff performs).1 mark with old | ⟨rfl, ready, free⟩
    · simp [clear] at old
    · obtain ⟨w, offer, start⟩ := command?_eq_start requests
      exact ⟨free, w, b.draws, rest, offer ▸ offered, .inr ⟨start, ready⟩⟩
  | refusedWord offered free reserved => exact ⟨free, _, _, _, offered, .inl reserved⟩
  | acknowledged => simp [clear] at mark

end RefusalMark

/-- Settles O39: no step clears the mark (`step_keeps_mark`), and a step sets it exactly where the block
refuses the beat offered. -/
theorem refusalMarkOnlyByRefusal : Obligations.RefusalMarkOnlyByRefusal :=
  ⟨fun _ => rfl, fun _ _ => step_keeps_mark, fun _ _ answers clear =>
    ⟨refusesBeat_of_step_refused answers clear, step_refused_of_refusesBeat answers⟩⟩

end Sys2Proof.Proofs
end

section
/-! SUPPORT. The proofs about the accumulator and the frames of 20_memory.md: how a frame lies on a bus
(R55), and that the commands which empty the accumulator are idempotent (R62). -/

namespace Sys2Proof.Proofs

open Sys2Proof Sys2Proof.Machine

section FrameBuses

/-! ## Lanes and bus values in steps of one byte (R55) -/

theorem two_pow_lane_succ (n : Nat) : 2 ^ (8 * (n + 1)) = 256 * 2 ^ (8 * n) := by
  rw [Nat.mul_succ, pow_add, mul_comm]
  rfl

theorem lanes_succ (n v : Nat) : lanes (n + 1) v = BitVec.ofNat 8 v :: lanes n (v / 256) := by
  rw [lanes, Nat.shiftRight_eq_div_pow]

theorem busOfFrame_cons (b : Byte) (f : List Byte) :
    busOfFrame (b :: f) = b.toNat + 256 * busOfFrame f := by
  rw [busOfFrame, Nat.shiftLeft_eq, mul_comm]

/-- The lowest lane of a bus value is byte 0. -/
theorem busOfFrame_cons_mod (b : Byte) (f : List Byte) : busOfFrame (b :: f) % 256 = b.toNat := by
  rw [busOfFrame_cons, Nat.add_mul_mod_self_left, Nat.mod_eq_of_lt b.isLt]

/-- The lanes above the lowest hold the rest of the frame. -/
theorem busOfFrame_cons_div (b : Byte) (f : List Byte) : busOfFrame (b :: f) / 256 = busOfFrame f := by
  rw [busOfFrame_cons, Nat.add_mul_div_left _ _ (by decide), Nat.div_eq_of_lt b.isLt, Nat.zero_add]

/-! ## Byte `k` is bits `[8k+7 : 8k]` -/

theorem lanes_getElem? {n k : Nat} (v : Nat) (below : k < n) :
    (lanes n v)[k]? = some (BitVec.ofNat 8 (v / 2 ^ (8 * k))) := by
  induction n generalizing v k with
  | zero => omega
  | succ n ih =>
    rw [lanes_succ]
    cases k with
    | zero => simp
    | succ k =>
      rw [List.getElem?_cons_succ, ih _ (Nat.lt_of_succ_lt_succ below), Nat.div_div_eq_div_mul,
        two_pow_lane_succ]

theorem busOfFrame_lane {f : List Byte} {k : Nat} {b : Byte} (byte : f[k]? = some b) :
    busOfFrame f / 2 ^ (8 * k) % 256 = b.toNat := by
  induction f generalizing k with
  | nil => simp at byte
  | cons c f ih =>
    cases k with
    | zero =>
      obtain rfl : c = b := by simpa using byte
      simpa using busOfFrame_cons_mod c f
    | succ k =>
      rw [two_pow_lane_succ, ← Nat.div_div_eq_div_mul, busOfFrame_cons_div]
      exact ih (by simpa using byte)

/-- A list of frames put on an output bus one after the other: the `j`-th value carries the bytes of the
`j`-th frame. -/
theorem packed_lane {fs : List Frame} {j k v : Nat} {f : Frame} {b : Byte} (byte : f[k]? = some b)
    (frame : fs[j]? = some f) (value : (fs.map busOfFrame)[j]? = some v) :
    v / 2 ^ (8 * k) % 256 = b.toNat := by
  obtain rfl : busOfFrame f = v := by simpa [frame] using value
  exact busOfFrame_lane byte

/-! ## Packing and unpacking are inverse -/

theorem busOfFrame_lt (f : List Byte) : busOfFrame f < 2 ^ (8 * f.length) := by
  induction f with
  | nil => decide
  | cons b f ih =>
    have byte : b.toNat < 256 := b.isLt
    rw [busOfFrame_cons, List.length_cons, two_pow_lane_succ]
    omega

theorem lanes_busOfFrame (f : List Byte) : lanes f.length (busOfFrame f) = f := by
  induction f with
  | nil => rfl
  | cons b f ih =>
    have lowest : BitVec.ofNat 8 (busOfFrame (b :: f)) = b :=
      BitVec.eq_of_toNat_eq (busOfFrame_cons_mod b f)
    rw [List.length_cons, lanes_succ, lowest, busOfFrame_cons_div, ih]

theorem busOfFrame_lanes (n v : Nat) : busOfFrame (lanes n v) = v % 2 ^ (8 * n) := by
  induction n generalizing v with
  | zero => exact (Nat.mod_one v).symm
  | succ n ih =>
    rw [lanes_succ, busOfFrame_cons, ih, BitVec.toNat_ofNat, two_pow_lane_succ, Nat.mod_mul]

end FrameBuses

/-- Settles O32: each lane holds its byte (`lanes_getElem?`, `busOfFrame_lane`), and packing and
unpacking are inverse (`lanes_busOfFrame`, `busOfFrame_lanes`). -/
theorem frameBusPacking : Obligations.FrameBusPacking := by
  refine fun p => ⟨fun v k => lanes_getElem? v, fun f k b => busOfFrame_lane, fun f len => ?_,
    busOfFrame_lanes p.frameSize, fun h => ⟨rfl, rfl⟩,
    fun h j k v f b byte => ⟨packed_lane byte, packed_lane byte⟩⟩
  rw [frameWidth, frameOfBus, ← len]
  exact ⟨busOfFrame_lt f, lanes_busOfFrame f⟩

section LengthResets

/-! ## The commands that empty the accumulator (R62, R106, R135, R138) -/

/-- RESET, STOP and RESTORE have one meaning, but for the Relay state they enter. -/
theorem exec_lengthReset {i : Instr} (resets : i = .reset ∨ i = .stop ∨ i = .restore) :
    ∃ enters : RelayState → RelayState, (∀ v, enters (enters v) = enters v) ∧
      ∀ s : State, exec i s =
        .next (if s.writeFree then ((s.setSt (enters s.st)).setLen 0).completeFor s.via .ok else s) := by
  rcases resets with rfl | rfl | rfl
  · exact ⟨id, fun _ => rfl, execReset_eq⟩
  · exact ⟨fun _ => .uninit, fun _ => rfl, execStop_eq⟩
  · exact ⟨id, fun _ => rfl, execRestore_eq⟩

end LengthResets

/-- Settles O23: the second command is held exactly where the first was, and otherwise enters the Relay
state and the length that the first has left, and adds only its status to the history. -/
theorem lengthResetsAreIdempotent : Obligations.LengthResetsAreIdempotent := by
  intro i s t resets answers
  obtain ⟨enters, idempotent, meaning⟩ := exec_lengthReset resets
  cases (meaning s).symm.trans answers
  refine ⟨_, meaning _, ?_⟩
  by_cases free : s.writeFree = true
  · have still : (((s.setSt (enters s.st)).setLen 0).completeFor s.via .ok).writeFree = true := free
    simp [free, still, idempotent]
  · simp [free]

end Sys2Proof.Proofs
end

section
/-! SUPPORT. The proofs about 30_encoding.md: the decoder against the encoder, the reserved words and the
opcode table (R77 to R83), the pseudo-commands (R85, R86), and what a step does with a beat of each port
(R71 to R76, R87). -/

namespace Sys2Proof.Proofs

open Sys2Proof Sys2Proof.Machine

section Fields

variable {w : Word}

/-! ## The fields of a word (R77) -/

theorem opOf_toNat (w : Word) : (opOf w).toNat = w.toNat % 16 := by
  simp [opOf]

theorem zOf_toNat (w : Word) : (zOf w).toNat = w.toNat / 16 % 16 := by
  simp [zOf, Nat.shiftRight_eq_div_pow]

theorem immOf_toNat (w : Word) : (immOf w).toNat = w.toNat / 256 := by
  have bound : w.toNat < 65536 := w.isLt
  rw [immOf, BitVec.extractLsb'_toNat, Nat.shiftRight_eq_div_pow]
  omega

theorem wordOf_toNat (imm : Byte) (op : BitVec 4) :
    (wordOf imm op).toNat = 256 * imm.toNat + op.toNat := by
  have low : (0#4 ++ op).toNat = op.toNat := by
    rw [BitVec.toNat_append, BitVec.toNat_zero, Nat.zero_shiftLeft, Nat.zero_or]
  rw [wordOf, BitVec.toNat_append, ← Nat.shiftLeft_add_eq_or_of_lt (BitVec.isLt _), low,
    Nat.shiftLeft_eq, Nat.mul_comm]

@[simp] theorem opOf_wordOf (imm : Byte) (op : BitVec 4) : opOf (wordOf imm op) = op := by
  apply BitVec.eq_of_toNat_eq
  rw [opOf_toNat, wordOf_toNat]
  omega

@[simp] theorem zOf_wordOf (imm : Byte) (op : BitVec 4) : zOf (wordOf imm op) = 0#4 := by
  apply BitVec.eq_of_toNat_eq
  rw [zOf_toNat, wordOf_toNat, BitVec.toNat_zero]
  omega

@[simp] theorem immOf_wordOf (imm : Byte) (op : BitVec 4) : immOf (wordOf imm op) = imm := by
  apply BitVec.eq_of_toNat_eq
  rw [immOf_toNat, wordOf_toNat]
  omega

/-- A word with `Z = 0` is made of its `IMM8` and its `OP`. -/
theorem wordOf_fields (z : zOf w = 0#4) : wordOf (immOf w) (opOf w) = w := by
  have zero : w.toNat / 16 % 16 = 0 := by rw [← zOf_toNat, z, BitVec.toNat_zero]
  apply BitVec.eq_of_toNat_eq
  rw [wordOf_toNat, immOf_toNat, opOf_toNat]
  omega

theorem wordOf_of_op {k : BitVec 4} (z : zOf w = 0#4) (op : (opOf w).toNat = k.toNat) :
    wordOf (immOf w) k = w := by
  rw [← BitVec.eq_of_toNat_eq op, wordOf_fields z]

end Fields

section Decoder

variable {w : Word} {i : Instr}

/-! ## What the decoder answers (R78, R80, R83) -/

/-- Every way in which the decoder can answer a word: the three cases of R80, each with the fields that
are its reason, and a command whose word it is. -/
inductive DecodeCase (w : Word) : Except Reserved Instr → Prop
  | zField (z : zOf w ≠ 0#4) : DecodeCase w (.error .zField)
  | opField (z : zOf w = 0#4) (op : (opOf w).toNat = 0 ∨ 8 ≤ (opOf w).toNat) :
      DecodeCase w (.error .opField)
  | immField (z : zOf w = 0#4) (low : 2 ≤ (opOf w).toNat) (high : (opOf w).toNat ≤ 6)
      (imm : immOf w ≠ 0#8) : DecodeCase w (.error .immField)
  | command {i : Instr} (word : encode i = w) : DecodeCase w (.ok i)

/-- A command without operand in the word is read from its own word alone. -/
theorem decodeCase_plainCommand {k : BitVec 4} (z : zOf w = 0#4) (op : (opOf w).toNat = k.toNat)
    (range : 2 ≤ k.toNat ∧ k.toNat ≤ 6) (word : encode i = wordOf 0#8 k) :
    DecodeCase w (plainCommand w i) := by
  rw [← op] at range
  unfold plainCommand
  split
  · next imm =>
    rw [← imm, wordOf_of_op z op] at word
    exact .command word
  · next imm => exact .immField z range.1 range.2 imm

theorem decodeCase (w : Word) : DecodeCase w (decode w) := by
  unfold decode
  split
  · next z => exact .zField z
  · next nz =>
    have z : zOf w = 0#4 := not_not.1 nz
    split
    · next op => exact .command (wordOf_of_op (k := 1#4) z op)
    · next op => exact decodeCase_plainCommand (k := 2#4) z op (by decide) rfl
    · next op => exact decodeCase_plainCommand (k := 3#4) z op (by decide) rfl
    · next op => exact decodeCase_plainCommand (k := 4#4) z op (by decide) rfl
    · next op => exact decodeCase_plainCommand (k := 5#4) z op (by decide) rfl
    · next op => exact decodeCase_plainCommand (k := 6#4) z op (by decide) rfl
    · next op => exact .command (wordOf_of_op (k := 7#4) z op)
    · next op1 op2 op3 op4 op5 op6 op7 =>
      simp only [imp_false] at op1 op2 op3 op4 op5 op6 op7
      exact .opField z (by omega)

theorem decode_encode (i : Instr) : decode (encode i) = .ok i := by
  cases i <;> simp [encode, decode, plainCommand]

theorem encode_of_decode (reads : decode w = .ok i) : encode i = w := by
  have answer := decodeCase w
  rw [reads] at answer
  cases answer with
  | command word => exact word

theorem decode_eq_ok_iff : decode w = .ok i ↔ encode i = w :=
  ⟨encode_of_decode, fun word => word ▸ decode_encode i⟩

theorem encode_injective : Function.Injective encode := by
  intro i j same
  have reads : Except.ok (ε := Reserved) i = .ok j := by
    rw [← decode_encode i, same, decode_encode]
  exact Except.ok.inj reads

/-- A word is legal exactly when it is the word of a command. -/
theorem legalWord_iff : legalWord w = true ↔ ∃ i, encode i = w := by
  simp only [← decode_eq_ok_iff]
  cases h : decode w <;> simp [legalWord, h]

end Decoder

/-- Settles O1: the decoder reads a command's word as that command (`decode_encode`), and what it reads as
a command is that command's word (`encode_of_decode`). -/
theorem decodeEncodeAgree : Obligations.DecodeEncodeAgree :=
  ⟨decode_encode, fun _ _ => encode_of_decode⟩

/-- Settles O2: an error of the decoder carries the fields that are its reason (`decodeCase`), and the
word of a command has none of them. -/
theorem reservedWordsAreThoseOfTheRule : Obligations.ReservedWordsAreThoseOfTheRule := by
  intro w
  rw [← opOf_toNat, ← zOf_toNat, ← immOf_toNat]
  constructor
  · intro reserved
    obtain ⟨r, reads⟩ := legalWord_eq_false_iff.1 reserved
    have answer := decodeCase w
    rw [reads] at answer
    cases answer with
    | zField z => exact .inr (.inl (BitVec.toNat_ne.1 z))
    | opField z op => exact .inl op
    | immField z low high imm => exact .inr (.inr ⟨⟨low, high⟩, BitVec.toNat_ne.1 imm⟩)
  · intro reason
    by_contra legal
    obtain ⟨i, rfl⟩ := legalWord_iff.1 (Bool.eq_true_of_not_eq_false legal)
    cases i <;> simp [encode] at reason

section LegalWords

/-! ## The legal words, listed (R82) -/

/-- All bytes. -/
def allBytes : List Byte := (List.finRange 256).map BitVec.ofFin

theorem allBytes_length : allBytes.length = 256 := by
  simp [allBytes]

theorem mem_allBytes (b : Byte) : b ∈ allBytes :=
  List.mem_map.2 ⟨b.toFin, List.mem_finRange _, rfl⟩

theorem allBytes_nodup : allBytes.Nodup :=
  (List.nodup_finRange 256).map fun _ _ same => congrArg BitVec.toFin same

/-- The commands without operand in the word. -/
def plainCommands : List Instr := [.reset, .start, .stop, .restore, .send]

/-- All commands, with every operand in the word. -/
def allCommands : List Instr :=
  allBytes.map .feedByte ++ allBytes.map .tevent ++ plainCommands

theorem mem_allCommands (i : Instr) : i ∈ allCommands := by
  cases i <;> simp [allCommands, plainCommands, mem_allBytes]

theorem allCommands_nodup : allCommands.Nodup := by
  have feeds : (allBytes.map Instr.feedByte).Nodup :=
    allBytes_nodup.map fun _ _ => Instr.feedByte.inj
  have tevents : (allBytes.map Instr.tevent).Nodup :=
    allBytes_nodup.map fun _ _ => Instr.tevent.inj
  have plain : plainCommands.Nodup := by decide
  have feeds_tevents : (allBytes.map Instr.feedByte).Disjoint (allBytes.map Instr.tevent) := by
    simp [List.Disjoint]
  have bytes_plain :
      (allBytes.map Instr.feedByte ++ allBytes.map Instr.tevent).Disjoint plainCommands := by
    simp only [List.Disjoint, List.mem_append, List.mem_map]
    rintro i (⟨b, -, rfl⟩ | ⟨t, -, rfl⟩) <;> simp [plainCommands]
  exact (feeds.append tevents feeds_tevents).append plain bytes_plain

end LegalWords

/-- Settles O3: the legal words are the words of all commands, without repeats because no two commands
have one word (`encode_injective`). -/
theorem legalWordsAre517 : Obligations.LegalWordsAre517 := by
  have words : (allBytes.map Instr.feedByte).map encode ++ (allBytes.map Instr.tevent).map encode ++
      plainCommands.map encode = allCommands.map encode := by
    simp only [allCommands, List.map_append]
  refine ⟨(allBytes.map .feedByte).map encode, (allBytes.map .tevent).map encode,
    plainCommands.map encode, by simp [allBytes_length], by simp [allBytes_length], ?_,
    by simp [allBytes_length, plainCommands], ?_, ?_, by simp [plainCommands, decode_encode], ?_⟩
  · rw [words]
    exact allCommands_nodup.map encode_injective
  · simp [decode_encode]
  · simp [decode_encode]
  · intro w
    rw [words, legalWord_iff]
    simp [mem_allCommands]

section OpcodeTable

variable {w : Word} {m : String}

/-! ## The opcode table (R78) -/

/-- A row that fixes `Z` and `OP` alone leaves `IMM8` open. -/
theorem and_opMask_eq_iff {op : BitVec 4} :
    w &&& 0x00FF#16 = wordOf 0#8 op ↔ ∃ b, wordOf b op = w := by
  have low : (w &&& 0x00FF#16).toNat = w.toNat % 256 := by
    rw [BitVec.toNat_and]
    exact Nat.and_two_pow_sub_one_eq_mod w.toNat 8
  constructor
  · intro row
    have lowByte : w.toNat % 256 = op.toNat := by
      rw [← low, row, wordOf_toNat, BitVec.toNat_zero, Nat.mul_zero, Nat.zero_add]
    refine ⟨immOf w, BitVec.eq_of_toNat_eq ?_⟩
    rw [wordOf_toNat, immOf_toNat]
    omega
  · rintro ⟨b, rfl⟩
    apply BitVec.eq_of_toNat_eq
    rw [low, wordOf_toNat, wordOf_toNat, BitVec.toNat_zero]
    omega

/-- A row that fixes every bit is one word. -/
theorem and_fullMask (w : Word) : w &&& 0xFFFF#16 = w := BitVec.and_allOnes

/-- The words of a mnemonic's row are the words of the commands with that mnemonic. -/
theorem matchesRow_iff :
    (∃ r ∈ opcodeTable, r.mnemonic = m ∧ w &&& r.mask = r.pattern) ↔
      ∃ i, encode i = w ∧ mnemonicOf i = m := by
  have feedRow : w &&& 0x00FF#16 = 0x0001#16 ↔ ∃ b, encode (.feedByte b) = w :=
    and_opMask_eq_iff (op := 1#4)
  have teventRow : w &&& 0x00FF#16 = 0x0007#16 ↔ ∃ t, encode (.tevent t) = w :=
    and_opMask_eq_iff (op := 7#4)
  simp only [opcodeTable, List.exists_mem_cons_iff, List.not_mem_nil, false_and, exists_false, or_false,
    feedRow, teventRow, and_fullMask]
  constructor
  · rintro (⟨rfl, b, word⟩ | ⟨rfl, word⟩ | ⟨rfl, word⟩ | ⟨rfl, word⟩ | ⟨rfl, word⟩ | ⟨rfl, word⟩ |
      ⟨rfl, t, word⟩)
    · exact ⟨.feedByte b, word, rfl⟩
    · exact ⟨.reset, word.symm, rfl⟩
    · exact ⟨.start, word.symm, rfl⟩
    · exact ⟨.stop, word.symm, rfl⟩
    · exact ⟨.restore, word.symm, rfl⟩
    · exact ⟨.send, word.symm, rfl⟩
    · exact ⟨.tevent t, word, rfl⟩
  · rintro ⟨i, rfl, rfl⟩
    cases i with
    | feedByte b => exact .inl ⟨rfl, b, rfl⟩
    | reset => exact .inr (.inl ⟨rfl, rfl⟩)
    | start => exact .inr (.inr (.inl ⟨rfl, rfl⟩))
    | stop => exact .inr (.inr (.inr (.inl ⟨rfl, rfl⟩)))
    | restore => exact .inr (.inr (.inr (.inr (.inl ⟨rfl, rfl⟩))))
    | send => exact .inr (.inr (.inr (.inr (.inr (.inl ⟨rfl, rfl⟩)))))
    | tevent t => exact .inr (.inr (.inr (.inr (.inr (.inr ⟨rfl, t, rfl⟩)))))

/-- No word matches rows of two mnemonics, since it is the word of one command at most. -/
theorem mnemonic_eq_of_matchesRow {r q : TableRow} (hr : r ∈ opcodeTable) (hq : q ∈ opcodeTable)
    (matchesR : w &&& r.mask = r.pattern) (matchesQ : w &&& q.mask = q.pattern) :
    r.mnemonic = q.mnemonic := by
  obtain ⟨i, wordI, nameI⟩ := matchesRow_iff.1 ⟨r, hr, rfl, matchesR⟩
  obtain ⟨j, wordJ, nameJ⟩ := matchesRow_iff.1 ⟨q, hq, rfl, matchesQ⟩
  obtain rfl : i = j := encode_injective (wordI.trans wordJ.symm)
  exact nameI.symm.trans nameJ

end OpcodeTable

/-- Settles O4: a row's words are its commands' words (`matchesRow_iff`); two rows with one word would
have one mnemonic (`mnemonic_eq_of_matchesRow`), and the mnemonics of the table differ. -/
theorem decoderAgreesWithOpcodeTable : Obligations.DecoderAgreesWithOpcodeTable := by
  refine ⟨fun w m => ?_, ?_⟩
  · simp only [decode_eq_ok_iff]
    exact matchesRow_iff.symm
  · have distinct : opcodeTable.Pairwise fun r q => r.mnemonic ≠ q.mnemonic := by decide
    refine distinct.imp_of_mem fun hr hq differ w ⟨matchesR, matchesQ⟩ => ?_
    exact differ (mnemonic_eq_of_matchesRow hr hq matchesR matchesQ)

/-- Settles O5: fourteen closed words, evaluated. -/
theorem vectorWordsDecode : Obligations.VectorWordsDecode := by
  unfold Obligations.VectorWordsDecode
  decide

section PseudoCommands

/-! ## The word of FEED_BYTE as the assembler's rule writes it (R84) -/

theorem encode_feedByte (b : Byte) : encode (.feedByte b) = (b.zeroExtend 16 <<< 8) ||| 0x1#16 := by
  have bound : b.toNat < 256 := b.isLt
  have shifted : (b.zeroExtend 16 <<< 8).toNat = b.toNat <<< 8 := by
    rw [BitVec.toNat_shiftLeft, BitVec.toNat_setWidth_of_le (by decide), Nat.shiftLeft_eq]
    omega
  apply BitVec.eq_of_toNat_eq
  calc (encode (.feedByte b)).toNat = 256 * b.toNat + 1 := wordOf_toNat b 1#4
    _ = b.toNat <<< 8 + 1 := by rw [Nat.shiftLeft_eq, Nat.mul_comm]
    _ = b.toNat <<< 8 ||| 1 := Nat.shiftLeft_add_eq_or_of_lt (by decide) _
    _ = ((b.zeroExtend 16 <<< 8) ||| 0x1#16).toNat := by rw [BitVec.toNat_or, shifted]; rfl

end PseudoCommands

/-- Settles O6: a feed is the map of FEED_BYTE over its bytes, whose word is `encode_feedByte`. -/
theorem feedExpandsToItsBytes : Obligations.FeedExpandsToItsBytes :=
  ⟨rfl, fun _ _ => rfl, fun _ => rfl, fun b => congrArg (fun w => [Offer.command w]) (encode_feedByte b)⟩

section PortRecord

variable {s : State}

/-! ## The record of the port (R71; notes/assumptions/7.md)

Forgetting the ports commutes with every operation on the state, up to the port that a status or an
outstanding write names. -/

/-- An outcome without the ports its commands came by. -/
def forgetPort (r : Result) : Result :=
  match r with
  | .next t => .next t.forgetPort
  | .fault r => .fault r
  | .refused r => .refused r

theorem forgetPort_writeFree : s.forgetPort.writeFree = s.writeFree :=
  Option.isNone_map

theorem forgetPort_trafficReady : s.forgetPort.trafficReady = s.trafficReady :=
  congrArg (decide (s.st = .ready) && ·) forgetPort_writeFree

theorem forgetPort_setLen (n : Nat) : (s.setLen n).forgetPort = s.forgetPort.setLen n := rfl

theorem forgetPort_setOutstanding (w : Option Port) :
    (s.setOutstanding w).forgetPort = s.forgetPort.setOutstanding (w.map fun _ => .command) := rfl

theorem forgetPort_emit (e : Event) : (s.emit e).forgetPort = s.forgetPort.emit e.forgetPort := by
  simp [State.forgetPort, State.emit]

theorem forgetPort_completeFor (via : Port) (code : Status) :
    (s.completeFor via code).forgetPort = s.forgetPort.completeFor .command code := by
  simp [State.forgetPort, State.completeFor, Event.forgetPort]

theorem forgetPort_finishWrite (via : Port) (count : Nat) :
    (s.finishWrite via count).forgetPort = s.forgetPort.finishWrite .command count := by
  rw [finishWrite_eq, finishWrite_eq, apply_ite State.forgetPort, forgetPort_completeFor,
    forgetPort_completeFor, forgetPort_emit]
  rfl

/-! ### Every command commutes with forgetting the ports -/

theorem execFeedByte_forgetPort (b : Byte) :
    execFeedByte b s.forgetPort = forgetPort (execFeedByte b s) := by
  rcases execFeedByte_cases b s with
    ⟨idle, held⟩ | ⟨ready, room, stored⟩ | ⟨f, ready, full, read, drained⟩ |
    ⟨r, ready, full, unread, fault⟩ | ⟨ready, beyond, fault⟩
  · rw [held]
    exact execFeedByte_held b (forgetPort_trafficReady.trans idle)
  · rw [stored, forgetPort, forgetPort_completeFor]
    exact execFeedByte_stored b (forgetPort_trafficReady.trans ready) room
  · rw [drained, forgetPort, forgetPort_completeFor]
    refine (execFeedByte_drained b (forgetPort_trafficReady.trans ready) full read).trans ?_
    rw [forgetPort_setLen, forgetPort_emit]
    rfl
  · rw [fault]
    exact execFeedByte_eq_fault.2 ⟨forgetPort_trafficReady.trans ready, .inr ⟨full, unread⟩⟩
  · rw [fault]
    exact execFeedByte_eq_fault.2 ⟨forgetPort_trafficReady.trans ready, .inl ⟨beyond, rfl⟩⟩

theorem exec_lengthReset_forgetPort {i : Instr} (resets : i = .reset ∨ i = .stop ∨ i = .restore) :
    exec i s.forgetPort = forgetPort (exec i s) := by
  obtain ⟨enters, -, meaning⟩ := exec_lengthReset resets
  rw [meaning, meaning, forgetPort, apply_ite State.forgetPort, forgetPort_completeFor,
    forgetPort_writeFree]
  rfl

theorem execStart_forgetPort : execStart s.forgetPort = forgetPort (execStart s) := by
  rw [execStart_eq, execStart_eq, forgetPort, forgetPort_writeFree]
  simp only [apply_ite State.forgetPort, forgetPort_completeFor]
  rfl

theorem execSend_forgetPort : execSend s.forgetPort = forgetPort (execSend s) := by
  have answer : s.forgetPort.draws.ackCount = s.draws.ackCount := rfl
  rw [execSend_eq, execSend_eq, forgetPort, forgetPort_trafficReady, answer,
    apply_ite State.forgetPort]
  cases s.draws.ackCount with
  | some c =>
    dsimp only
    rw [forgetPort_finishWrite, forgetPort_emit]
    rfl
  | none =>
    dsimp only
    rw [forgetPort_setOutstanding, forgetPort_emit]
    rfl

theorem exec_forgetPort (i : Instr) : exec i s.forgetPort = forgetPort (exec i s) := by
  cases i with
  | feedByte b => exact execFeedByte_forgetPort b
  | reset => exact exec_lengthReset_forgetPort (by simp)
  | start => exact execStart_forgetPort
  | stop => exact exec_lengthReset_forgetPort (by simp)
  | restore => exact exec_lengthReset_forgetPort (by simp)
  | send => exact execSend_forgetPort
  | tevent tag => exact congrArg Host.Outcome.next (forgetPort_completeFor s.via .ok).symm

end PortRecord

/-- Settles O9: forgetting the ports commutes with every operation that a command is built from, and so
with every command (`exec_forgetPort`). -/
theorem portChangesOnlyItsRecord : Obligations.PortChangesOnlyItsRecord := by
  intro i s
  rw [exec_forgetPort]
  rfl

section Ready

variable {s : State}

/-! ## The ready outputs (R71, R72, R74) -/

/-- Where FEED_BYTE is performed, it completes: the index moves on (R87). -/
theorem execFeedByte_of_ready (b : Byte) (inv : s.Inv) (ready : s.trafficReady = true) :
    ∃ t, execFeedByte b s = .next t ∧ t.index = s.index + 1 := by
  have ⟨(bound : s.len < s.cfg.frameSize), _⟩ := inv
  by_cases full : s.len + 1 = s.cfg.frameSize
  · obtain ⟨f, read⟩ := memRead_isOk_of_filling b inv full
    exact ⟨_, execFeedByte_drained b ready full read, rfl⟩
  · exact ⟨_, execFeedByte_stored b ready (by omega), rfl⟩

/-- `cmd_ready` for a legal word: no write is outstanding, and the Relay relays if the command is
traffic (R71, R101, R151, R153). -/
theorem cmdReady_iff {w : Word} {i : Instr} (reads : decode w = .ok i) :
    s.cmdReady w = true ↔
      s.outstanding = none ∧ ((i = .send ∨ ∃ b, i = .feedByte b) → s.st = .ready) := by
  unfold State.cmdReady
  rw [reads]
  cases i with
  | feedByte b => simp [trafficReady_iff, and_comm]
  | send => simp [trafficReady_iff, and_comm]
  | _ => simp [writeFree_iff]

/-- The traffic ports are not ready in `UNINIT` and while a write is outstanding. -/
theorem trafficReady_eq_false_iff :
    s.trafficReady = false ↔ s.st = .uninit ∨ s.outstanding ≠ none := by
  rw [← Bool.not_eq_true, trafficReady_iff, not_and_or]
  cases s.st <;> simp

end Ready

/-- Settles O17: a FEED_BYTE that `rx_ready` lets in moves the index on (`execFeedByte_of_ready`), one
that it does not leaves the index with the rest of the state (`execFeedByte_held`). -/
theorem receiveReadyMeansPerformed : Obligations.ReceiveReadyMeansPerformed := by
  intro b s inv
  change (s.trafficReady = false ↔ execFeedByte b s = .next s) ∧
    (s.trafficReady = true ↔ ∃ t, execFeedByte b s = .next t ∧ t.index = s.index + 1)
  cases relays : s.trafficReady with
  | false => simp [execFeedByte_held b relays]
  | true =>
    obtain ⟨t, answers, moved⟩ := execFeedByte_of_ready b inv relays
    have differs : t ≠ s := by
      rintro rfl
      omega
    simp [answers, moved, differs]

section Beats

variable {s : State} {w : Word} {d : Draws} {rest : List Beat}

/-! ## A step on a word of the command port (R71, R80, R87) -/

theorem step_word (offered : s.pending = ⟨.command w, d⟩ :: rest) :
    step s = offerWord w d rest s := step_cons offered

theorem offerWord_held (busy : s.cmdReady w = false) : offerWord w d rest s = .next s := by
  simp [offerWord, busy, hold]

theorem offerWord_performed {i : Instr} (reads : decode w = .ok i) (ready : s.cmdReady w = true) :
    offerWord w d rest s = exec i (s.accept .command d rest) := by
  simp [offerWord, ready, reads]

theorem offerWord_refused (reserved : legalWord w = false) (free : s.outstanding = none) :
    offerWord w d rest s = .next (s.accept .command d rest).refuse := by
  obtain ⟨r, reads⟩ := legalWord_eq_false_iff.1 reserved
  have ready : s.cmdReady w = true := (cmdReady_of_reserved reserved).trans (writeFree_iff.2 free)
  simp [offerWord, ready, reads]

/-! ## A step on a beat of a dedicated port (R72, R74) -/

theorem offerBeat_performed {ready : Bool} {via : Port} {i : Instr} (is : ready = true) :
    offerBeat ready via i d rest s = exec i (s.accept via d rest) := if_pos is

theorem offerBeat_held {ready : Bool} {via : Port} {i : Instr} (isNot : ready = false) :
    offerBeat ready via i d rest s = .next s := by
  simp [offerBeat, isNot, hold]

end Beats

/-- Settles O7: `cmdReady_iff` for the ready output, `offerWord_performed` and `offerWord_held` for the
two values it can have. -/
theorem stepRunsDecodedCommand : Obligations.StepRunsDecodedCommand := by
  intro s w d rest i offered reads
  rw [step_word offered]
  exact ⟨cmdReady_iff reads, offerWord_performed reads, offerWord_held⟩

/-- Settles O8: the receive and frame input ports are ready exactly when the Relay relays, the event port
always. -/
theorem dedicatedPortRunsItsCommand : Obligations.DedicatedPortRunsItsCommand := by
  intro s d rest
  refine ⟨fun b offered relays free => ?_, fun offered relays free => ?_, fun t offered => ?_,
    fun b offered idle => ?_, fun offered idle => ?_⟩
  · exact (step_cons offered).trans (offerBeat_performed (trafficReady_iff.2 ⟨relays, free⟩))
  · exact (step_cons offered).trans (offerBeat_performed (trafficReady_iff.2 ⟨relays, free⟩))
  · exact (step_cons offered).trans (offerBeat_performed rfl)
  · exact (step_cons offered).trans (offerBeat_held (trafficReady_eq_false_iff.2 idle))
  · exact (step_cons offered).trans (offerBeat_held (trafficReady_eq_false_iff.2 idle))

/-- Settles O11: with no write outstanding the word is refused (`offerWord_refused`), with one it finds
`cmd_ready` at 0. -/
theorem reservedWordIsRefused : Obligations.ReservedWordIsRefused := by
  intro s w d rest offered reserved
  rw [step_word offered]
  refine ⟨offerWord_refused reserved, fun waits => offerWord_held ?_⟩
  rw [cmdReady_of_reserved reserved, ← Bool.not_eq_true, writeFree_iff]
  exact waits

section Pulses

/-! ## Output pulses (R71, R74, R76) -/

theorem foData_append (h k : List Event) : foData (h ++ k) = foData h ++ foData k := by
  simp [foData]

theorem txData_append (h k : List Event) : txData (h ++ k) = txData h ++ txData k := by
  simp [txData]

/-- Only a status of the command port is a pulse of `done_valid` (R71). -/
theorem donePulses_status (via : Port) (code : Status) :
    donePulses [.status via code] = if via = .command then [code.code] else [] := by
  cases via <;> rfl

theorem statusCode_eq (code : Status) :
    code.code = if code = .configurationError then 1#2 else 0#2 := by
  cases code <;> rfl

end Pulses

/-- Settles O51: the views of the history are taken event by event, and each event has its own. -/
theorem outputPortsShowTheHistory : Obligations.OutputPortsShowTheHistory := by
  refine ⟨fun h k => ?_, fun f => ?_, fun f => ?_, fun n => ?_, fun via code => ?_⟩
  · exact ⟨foData_append h k, txData_append h k, reported_append h k, donePulses_append h k⟩
  · exact ⟨rfl, rfl, rfl, rfl⟩
  · exact ⟨rfl, rfl, rfl, rfl⟩
  · exact ⟨rfl, rfl, rfl, rfl⟩
  · rw [← statusCode_eq]
    exact ⟨rfl, rfl, rfl, donePulses_status via code⟩

end Sys2Proof.Proofs
end

section
/-! SUPPORT. The proofs about 40_reassembler.md: FEED_BYTE and RESET (R100 to R102, R106), the closed form
of feeding a chunk (R104), and what follows from it for the bytes fed (R105) and for the length resets
(R107). -/

namespace Sys2Proof.Proofs

open Sys2Proof Sys2Proof.Machine

section FramesOfBytes

variable {p : Params} {F S C : List Byte}

/-! ## The frames and the rest of a byte sequence (R53, R104) -/

theorem framesOf_length (p : Params) (S : List Byte) :
    (framesOf p S).length = S.length / p.frameSize := by simp [framesOf]

theorem framesOf_getElem? {j : Nat} (below : j < S.length / p.frameSize) :
    (framesOf p S)[j]? = some ((S.drop (j * p.frameSize)).take p.frameSize) := by
  simp [framesOf, List.getElem?_range below]

theorem restOf_length (p : Params) (S : List Byte) :
    (restOf p S).length = S.length % p.frameSize := by
  rw [restOf, List.length_drop, Nat.mod_eq_sub_div_mul]

theorem restOf_length_lt (p : Params) (S : List Byte) : (restOf p S).length < p.frameSize :=
  restOf_length p S ▸ Nat.mod_lt _ p.frameSize_pos

/-- The rest is counted from the end of the sequence as R104 counts it. -/
theorem restOf_eq_drop (p : Params) (S : List Byte) :
    restOf p S = S.drop (S.length - S.length % p.frameSize) := by
  rw [restOf, Nat.mod_eq_sub_div_mul, Nat.sub_sub_self (Nat.div_mul_le_self ..)]

theorem framesOf_of_lt (short : S.length < p.frameSize) : framesOf p S = [] := by
  simp [framesOf, Nat.div_eq_of_lt short]

theorem restOf_of_lt (short : S.length < p.frameSize) : restOf p S = S := by
  simp [restOf, Nat.div_eq_of_lt short]

theorem length_append_div (full : F.length = p.frameSize) (S : List Byte) :
    (F ++ S).length / p.frameSize = S.length / p.frameSize + 1 := by
  rw [List.length_append, full, Nat.add_div_left _ p.frameSize_pos]

/-- Past a whole frame, one slice later is the same slice of what follows. -/
theorem drop_append_frame (full : F.length = p.frameSize) (S : List Byte) (j : Nat) :
    (F ++ S).drop ((j + 1) * p.frameSize) = S.drop (j * p.frameSize) := by
  rw [Nat.succ_mul, Nat.add_comm, ← full, List.drop_length_add_append]

theorem framesOf_append_frame (full : F.length = p.frameSize) (S : List Byte) :
    framesOf p (F ++ S) = F :: framesOf p S := by
  rw [framesOf, length_append_div full, List.range_succ_eq_map, List.map_cons, List.map_map]
  congr 1
  · simp [← full]
  · exact List.map_congr_left fun j _ => congrArg (List.take _) (drop_append_frame full S j)

theorem restOf_append_frame (full : F.length = p.frameSize) (S : List Byte) :
    restOf p (F ++ S) = restOf p S := by
  rw [restOf, length_append_div full, drop_append_frame full, restOf]

theorem framesOf_frame (full : F.length = p.frameSize) : framesOf p F = [F] := by
  simpa [framesOf_of_lt (S := []) p.frameSize_pos] using framesOf_append_frame full []

theorem restOf_frame (full : F.length = p.frameSize) : restOf p F = [] := by
  simpa [restOf] using restOf_append_frame full []

/-- Induction over the whole frames at the front of a byte sequence. -/
theorem frames_induction (p : Params) {motive : List Byte → Prop}
    (short : ∀ S, S.length < p.frameSize → motive S)
    (frame : ∀ F S, F.length = p.frameSize → motive S → motive (F ++ S)) (S : List Byte) :
    motive S := by
  induction h : S.length using Nat.strong_induction_on generalizing S with
  | _ n ih =>
    by_cases lt : S.length < p.frameSize
    · exact short S lt
    · have pos := p.frameSize_pos
      rw [← List.take_append_drop p.frameSize S]
      refine frame _ _ (List.length_take_of_le (Nat.le_of_not_lt lt)) (ih _ ?_ _ rfl)
      rw [List.length_drop]
      omega

/-- Cutting a byte sequence changes neither its frames nor its rest: what the first part leaves is put in
front of the second (R105). -/
theorem framesOf_append (p : Params) (S C : List Byte) :
    framesOf p (S ++ C) = framesOf p S ++ framesOf p (restOf p S ++ C) := by
  induction S using frames_induction p with
  | short S short => rw [framesOf_of_lt short, restOf_of_lt short, List.nil_append]
  | frame F S full ih =>
    rw [List.append_assoc, framesOf_append_frame full, framesOf_append_frame full,
      restOf_append_frame full, ih, List.cons_append]

theorem restOf_append (p : Params) (S C : List Byte) :
    restOf p (S ++ C) = restOf p (restOf p S ++ C) := by
  induction S using frames_induction p with
  | short S short => rw [restOf_of_lt short]
  | frame F S full ih =>
    rw [List.append_assoc, restOf_append_frame full, restOf_append_frame full, ih]

end FramesOfBytes

section Commands

variable {s : State} {P : List Byte}

/-! ## FEED_BYTE by the partial frame held (R100 to R102) -/

theorem trafficReady_of_uninit (uninit : s.st = .uninit) : s.trafficReady = false :=
  trafficReady_eq_false_iff.2 (.inl uninit)

/-- The byte that fills the accumulator delivers the partial frame held with the byte appended. -/
theorem execFeedByte_delivers (b : Byte) (ready : s.trafficReady = true) (holds : s.Holds P)
    (full : (P ++ [b]).length = s.cfg.frameSize) :
    execFeedByte b s =
      .next ((((s.setBuf (s.buf.write s.len b)).emit (.deliver (P ++ [b]))).setLen 0).completeFor
        s.via .ok) := by
  have len : s.len + 1 = s.cfg.frameSize := by rw [holds.1, ← full, List.length_append]; rfl
  exact execFeedByte_drained b ready len (memRead_of_holds full (read_store_of_holds b holds))

end Commands

/-- Settles O12: the store of `execFeedByte_stored`, with the memory's laws for the cells. -/
theorem feedByteStoresAtLength : Obligations.FeedByteStoresAtLength := by
  intro b s ready free room
  refine ⟨s.buf.write s.len b, ?_, read_write_same .., fun a => read_write_other s.buf b⟩
  exact execFeedByte_stored b (trafficReady_iff.2 ⟨ready, free⟩) room

/-- Settles O13: the drain of `execFeedByte_delivers`, with the memory's laws for the cells. -/
theorem feedByteDeliversFullFrame : Obligations.FeedByteDeliversFullFrame := by
  intro b s P ready free holds full
  refine ⟨s.buf.write s.len b, ?_, read_write_same .., fun a => read_write_other s.buf b⟩
  have length : (P ++ [b]).length = s.cfg.frameSize := by simpa using full
  rw [List.append_cons s.history]
  exact execFeedByte_delivers b (trafficReady_iff.2 ⟨ready, free⟩) holds length

/-- Settles O14: in `UNINIT` the Relay does not relay, so both commands are held. -/
theorem trafficIsHeldInUninit : Obligations.TrafficIsHeldInUninit := by
  intro b s uninit
  have idle := trafficReady_of_uninit uninit
  exact ⟨execFeedByte_held b idle, (execSend_eq s).trans (by simp [idle])⟩

/-- Settles O18: RESET is performed in either Relay state as long as no write is outstanding. -/
theorem resetEmptiesTheLength : Obligations.ResetEmptiesTheLength := by
  refine ⟨by decide, fun s free => (execReset_eq s).trans ?_⟩
  rw [if_pos (writeFree_iff.2 free)]
  rfl

section Traffic

variable {s t u : State} {P C D : List Byte} {b : Beat} {rest : List Beat}

/-! ## Traffic in a Relay that relays (R104, R105) -/

/-- The Relay relays and holds the partial frame `P` (R22, R27). -/
structure Relaying (s : State) (P : List Byte) : Prop where
  ready : s.st = .ready
  free : s.outstanding = none
  holds : s.Holds P
  short : P.length < s.cfg.frameSize

/-- From `s`, with the partial frame `P`, to `t` the bytes `C` and no others have entered the
accumulator. -/
structure Absorbs (P C : List Byte) (s t : State) : Prop where
  cfg : t.cfg = s.cfg
  delivers : delivered t.history = delivered s.history ++ framesOf s.cfg (P ++ C)
  relaying : Relaying t (restOf s.cfg (P ++ C))

theorem Relaying.trafficReady (relaying : Relaying s P) : s.trafficReady = true :=
  trafficReady_iff.2 ⟨relaying.ready, relaying.free⟩

theorem Relaying.accept (relaying : Relaying s P) (via : Port) (d : Draws) (rest : List Beat) :
    Relaying (s.accept via d rest) P :=
  ⟨relaying.ready, relaying.free, relaying.holds, relaying.short⟩

theorem Absorbs.of_accept {via : Port} {d : Draws} (absorbs : Absorbs P C (s.accept via d rest) t) :
    Absorbs P C s t :=
  ⟨absorbs.cfg, absorbs.delivers, absorbs.relaying⟩

/-- What neither feeds a byte nor touches the Relay's registers absorbs nothing. -/
theorem Absorbs.of_unchanged (relaying : Relaying s P) (cfg : t.cfg = s.cfg) (st : t.st = s.st)
    (len : t.len = s.len) (buf : t.buf = s.buf) (free : t.outstanding = none)
    (history : delivered t.history = delivered s.history) : Absorbs P [] s t where
  cfg := cfg
  delivers := by simp [history, framesOf_of_lt relaying.short]
  relaying := by
    rw [List.append_nil, restOf_of_lt relaying.short]
    refine ⟨st.trans relaying.ready, free, ?_, cfg ▸ relaying.short⟩
    simpa only [State.Holds, len, buf] using relaying.holds

theorem Absorbs.refl (relaying : Relaying s P) : Absorbs P [] s s :=
  .of_unchanged relaying rfl rfl rfl rfl relaying.free rfl

/-- Absorbing `D` after `C` is absorbing `C` followed by `D`, wherever the cut between them falls in a
frame. -/
theorem Absorbs.trans (first : Absorbs P C s t) (second : Absorbs (restOf s.cfg (P ++ C)) D t u) :
    Absorbs P (C ++ D) s u where
  cfg := second.cfg.trans first.cfg
  delivers := by
    rw [second.delivers, first.delivers, first.cfg, List.append_assoc, ← framesOf_append,
      List.append_assoc]
  relaying := by
    rw [← List.append_assoc, restOf_append, ← first.cfg]
    exact first.cfg ▸ second.relaying

/-! ### Each command of traffic -/

theorem exec_feedByte_absorbs (b : Byte) (relaying : Relaying s P) :
    ∃ t, exec (.feedByte b) s = .next t ∧ Absorbs P [b] s t ∧ t.pending = s.pending := by
  have length : (P ++ [b]).length = s.len + 1 := by simp [relaying.holds.1]
  have bound : s.len < s.cfg.frameSize := relaying.holds.1 ▸ relaying.short
  by_cases full : (P ++ [b]).length = s.cfg.frameSize
  · refine ⟨_, execFeedByte_delivers b relaying.trafficReady relaying.holds full, ⟨rfl, ?_, ?_⟩, rfl⟩
    · simp [framesOf_frame full]
    · rw [restOf_frame full]
      exact ⟨relaying.ready, relaying.free, holds_setLen_zero, s.cfg.frameSize_pos⟩
  · have room : (P ++ [b]).length < s.cfg.frameSize := by omega
    refine ⟨_, execFeedByte_stored b relaying.trafficReady (length ▸ room), ⟨rfl, ?_, ?_⟩, rfl⟩
    · simp [framesOf_of_lt room]
    · rw [restOf_of_lt room]
      exact ⟨relaying.ready, relaying.free,
        ⟨length.symm, read_store_of_holds b relaying.holds⟩, room⟩

theorem exec_tevent_absorbs (tag : Byte) (relaying : Relaying s P) :
    ∃ t, exec (.tevent tag) s = .next t ∧ Absorbs P [] s t ∧ t.pending = s.pending :=
  ⟨_, execTevent_eq tag s, .of_unchanged relaying rfl rfl rfl rfl relaying.free (by simp), rfl⟩

/-- A finished write delivers nothing. -/
theorem delivered_finishWrite (via : Port) (count : Nat) :
    delivered (s.finishWrite via count).history = delivered s.history := by
  rw [finishWrite_history]
  split <;> simp

/-- An answered SEND leaves the reassembly alone (R156, R162). -/
theorem exec_send_absorbs {count : Nat} (answered : s.draws.ackCount = some count)
    (relaying : Relaying s P) :
    ∃ t, exec .send s = .next t ∧ Absorbs P [] s t ∧ t.pending = s.pending := by
  refine ⟨_, execSend_eq s, ?_⟩
  simp only [relaying.trafficReady, if_true, answered]
  refine ⟨.of_unchanged relaying ?_ ?_ ?_ ?_ ?_ ?_, ?_⟩ <;> simp [delivered_finishWrite]

/-! ### Beats of traffic -/

/-- A command of traffic, with the draws of its beat, absorbs the byte it feeds, if it feeds one. -/
theorem exec_absorbs {i : Instr} (requests : b.command? = some i) (traffic : b.isTraffic = true)
    (draws : s.draws = b.draws) (relaying : Relaying s P) :
    ∃ t, exec i s = .next t ∧ Absorbs P b.fed?.toList s t ∧ t.pending = s.pending := by
  simp only [Beat.isTraffic, Beat.fed?, requests] at traffic ⊢
  cases i with
  | feedByte c => exact exec_feedByte_absorbs c relaying
  | tevent tag => exact exec_tevent_absorbs tag relaying
  | send =>
    obtain ⟨count, answered⟩ := Option.isSome_iff_exists.1 traffic
    exact exec_send_absorbs (draws ▸ answered) relaying
  | _ => cases traffic

theorem fed?_eq_some {c : Byte} (feeds : b.fed? = some c) : b.command? = some (.feedByte c) := by
  unfold Beat.fed? at feeds
  split at feeds
  · next requests => exact requests.trans (congrArg _ (congrArg _ (Option.some.inj feeds)))
  · cases feeds

theorem isTraffic_of_fed? {c : Byte} (feeds : b.fed? = some c) : b.isTraffic = true := by
  simp [Beat.isTraffic, fed?_eq_some feeds]

/-- While the Relay relays, every beat that requests a command is taken at once, by whichever port. -/
theorem step_of_trafficReady {i : Instr} (ready : s.trafficReady = true)
    (offered : s.pending = b :: rest) (requests : b.command? = some i) :
    ∃ via, step s = exec i (s.accept via b.draws rest) := by
  obtain ⟨st, free⟩ := trafficReady_iff.1 ready
  obtain ⟨offer, d⟩ := b
  cases offer with
  | command w =>
    have reads : decode w = .ok i := by
      cases read : decode w with
      | ok j => simpa [Beat.command?, read] using requests
      | error r => simp [Beat.command?, read] at requests
    exact ⟨_, (step_word offered).trans
      (offerWord_performed reads ((cmdReady_iff reads).2 ⟨free, fun _ => st⟩))⟩
  | rxByte c =>
    cases requests
    exact ⟨_, (step_cons offered).trans (offerBeat_performed ready)⟩
  | event tag =>
    cases requests
    exact ⟨_, (step_cons offered).trans (offerBeat_performed rfl)⟩
  | frameIn =>
    cases requests
    exact ⟨_, (step_cons offered).trans (offerBeat_performed ready)⟩
  | ack count => cases requests

/-- A beat of traffic is taken, and absorbs the byte it feeds, if it feeds one. -/
theorem step_absorbs (relaying : Relaying s P) (offered : s.pending = b :: rest)
    (traffic : b.isTraffic = true) :
    ∃ t, step s = .next t ∧ Absorbs P b.fed?.toList s t ∧ t.pending = rest := by
  cases requests : b.command? with
  | none => simp [Beat.isTraffic, requests] at traffic
  | some i =>
    obtain ⟨via, steps⟩ := step_of_trafficReady relaying.trafficReady offered requests
    obtain ⟨t, answers, absorbs, left⟩ :=
      exec_absorbs requests traffic rfl (relaying.accept via b.draws rest)
    exact ⟨t, steps.trans answers, absorbs.of_accept, left⟩

theorem fedBytes_cons (b : Beat) (bs : List Beat) : fedBytes (b :: bs) = b.fed?.toList ++ fedBytes bs := by
  cases feeds : b.fed? <;> simp [fedBytes, feeds]

/-- A run over traffic takes every beat and absorbs exactly the bytes fed. -/
theorem run_absorbs {bs : List Beat} (relaying : Relaying s P) (offered : s.pending = bs ++ rest)
    (traffic : ∀ b ∈ bs, b.isTraffic = true) :
    ∃ t, run bs.length s = .next t ∧ Absorbs P (fedBytes bs) s t ∧ t.pending = rest := by
  induction bs generalizing s P with
  | nil => exact ⟨s, rfl, .refl relaying, offered⟩
  | cons b bs ih =>
    obtain ⟨first, others⟩ := List.forall_mem_cons.1 traffic
    obtain ⟨u, steps, absorbs, offered'⟩ := step_absorbs relaying offered first
    obtain ⟨t, ran, absorbs', left⟩ := ih absorbs.relaying offered' others
    exact ⟨t, (run_succ _ steps).trans ran, fedBytes_cons b bs ▸ absorbs.trans absorbs', left⟩

/-- Beats that feed one byte of a chunk each are traffic that feeds the chunk. -/
theorem traffic_of_map_fed? {bs : List Beat} (feeds : bs.map Beat.fed? = C.map some) :
    (∀ b ∈ bs, b.isTraffic = true) ∧ fedBytes bs = C := by
  constructor
  · intro b mem
    have fed : b.fed? ∈ C.map some := feeds ▸ List.mem_map_of_mem mem
    obtain ⟨c, -, is⟩ := List.mem_map.1 fed
    exact isTraffic_of_fed? is.symm
  · calc fedBytes bs = (bs.map Beat.fed?).filterMap id := by rw [List.filterMap_map]; rfl
      _ = C := by rw [feeds, List.filterMap_map]; exact List.filterMap_some

end Traffic

/-- Settles O45: a run over the beats of the chunk absorbs `C` (`run_absorbs`, by induction over the
beats); the frames and the rest of `P ++ C` have the number, content and length of R104. -/
theorem chunkClosedForm : Obligations.ChunkClosedForm := by
  intro s P C bs rest ready free holds short feeds offered
  obtain ⟨traffic, rfl⟩ := traffic_of_map_fed? feeds
  obtain ⟨t, ran, absorbs, left⟩ := run_absorbs ⟨ready, free, holds, short⟩ offered traffic
  have total : (P ++ fedBytes bs).length = s.len + (fedBytes bs).length := by
    rw [List.length_append, holds.1]
  have len : t.len = (P ++ fedBytes bs).length % s.cfg.frameSize :=
    absorbs.relaying.holds.1.trans (restOf_length ..)
  refine ⟨t, _, ran, absorbs.delivers, total ▸ framesOf_length .., fun j below => ?_, total ▸ len, ?_,
    absorbs.relaying.ready, left⟩
  · exact framesOf_getElem? (framesOf_length s.cfg _ ▸ below)
  · rw [len, ← restOf_eq_drop]
    exact absorbs.relaying.holds

/-- Settles O46: either run delivers the frames and keeps the rest of `P` and the bytes fed. -/
theorem onlyTheBytesFedMatter : Obligations.OnlyTheBytesFedMatter := by
  intro s₁ s₂ P bs₁ bs₂ rest₁ rest₂ cfg ready₁ ready₂ free₁ free₂ holds₁ holds₂ short offered₁ offered₂
    traffic₁ traffic₂ fed
  obtain ⟨t₁, ran₁, absorbs₁, left₁⟩ := run_absorbs ⟨ready₁, free₁, holds₁, short⟩ offered₁ traffic₁
  obtain ⟨t₂, ran₂, absorbs₂, left₂⟩ :=
    run_absorbs ⟨ready₂, free₂, holds₂, cfg ▸ short⟩ offered₂ traffic₂
  obtain ⟨-, delivers, relaying⟩ := absorbs₂
  rw [← fed, ← cfg] at delivers relaying
  exact ⟨t₁, t₂, _, _, ran₁, ran₂, absorbs₁.delivers, delivers, absorbs₁.relaying.holds,
    relaying.holds, left₁, left₂⟩

section AfterLengthReset

variable {s t u : State}

/-! ## What a length reset leaves (R106, R107) -/

/-- From `s` to `t` the partial frame has been dropped, and nothing delivered. -/
structure Empties (s t : State) : Prop where
  len : t.len = 0
  free : t.outstanding = none
  delivers : delivered t.history = delivered s.history

theorem empties_of_exec_lengthReset {i : Instr} (resets : i = .reset ∨ i = .stop ∨ i = .restore)
    (free : s.outstanding = none) (answers : exec i s = .next t) : Empties s t := by
  obtain ⟨enters, -, meaning⟩ := exec_lengthReset resets
  cases (meaning s).symm.trans answers
  rw [if_pos (writeFree_iff.2 free)]
  exact ⟨rfl, free, by simp⟩

theorem st_of_exec_stop (free : s.outstanding = none) (answers : exec .stop s = .next t) :
    t.st = .uninit := by
  cases (execStop_eq s).symm.trans answers
  rw [if_pos (writeFree_iff.2 free)]
  rfl

/-- A START in `UNINIT` that enters `READY` empties the accumulator; one that stays in `UNINIT` has not
succeeded (R130, R132). -/
theorem empties_of_exec_start (uninit : s.st = .uninit) (free : s.outstanding = none)
    (answers : exec .start s = .next t) (ready : t.st = .ready) : Empties s t := by
  cases (execStart_eq s).symm.trans answers
  rw [if_pos (writeFree_iff.2 free), if_neg (by simp [uninit])] at ready ⊢
  split at ready
  · next connected =>
    rw [if_pos connected]
    exact ⟨rfl, free, by simp⟩
  · simp [uninit] at ready

theorem empties_of_stop_start {m : State} (free : s.outstanding = none)
    (stops : exec .stop s = .next m) (starts : exec .start (m.withConnected true) = .next u)
    (ready : u.st = .ready) : Empties s u := by
  have stopped : Empties s m := empties_of_exec_lengthReset (.inr (.inl rfl)) free stops
  have uninit : m.st = .uninit := st_of_exec_stop free stops
  have started : Empties (m.withConnected true) u :=
    empties_of_exec_start uninit stopped.free starts ready
  exact ⟨started.len, started.free, started.delivers.trans stopped.delivers⟩

/-- A Relay in `READY` that has dropped its partial frame relays with none held. -/
theorem Empties.relaying (empties : Empties s t) (ready : t.st = .ready) : Relaying t [] :=
  ⟨ready, empties.free, ⟨empties.len, by simp⟩, t.cfg.frameSize_pos⟩

end AfterLengthReset

/-- Settles O47: each of the four length resets leaves no partial frame (`Empties`), so the traffic after
it absorbs its own bytes alone. -/
theorem lengthResetForgetsThePartialFrame : Obligations.LengthResetForgetsThePartialFrame := by
  intro s u bs rest free resets ready offered traffic
  have empties : Empties s u := by
    rcases resets with answers | answers | ⟨uninit, answers⟩ | ⟨m, stops, starts⟩
    · exact empties_of_exec_lengthReset (by simp) free answers
    · exact empties_of_exec_lengthReset (by simp) free answers
    · exact empties_of_exec_start uninit free answers ready
    · exact empties_of_stop_start free stops starts ready
  obtain ⟨t, ran, absorbs, -⟩ := run_absorbs (empties.relaying ready) offered traffic
  obtain ⟨-, delivers, relaying⟩ := absorbs
  rw [List.nil_append, empties.delivers] at delivers
  refine ⟨t, ran, delivers, fun short => ⟨?_, ?_⟩⟩
  · rw [delivers, framesOf_of_lt short, List.append_nil]
  · rw [List.nil_append, restOf_of_lt short] at relaying
    exact relaying.holds

end Sys2Proof.Proofs
end

section
/-! SUPPORT. The proofs about 41_relay_lifecycle.md: START by the Relay state and the transport (R130 to
R132), STOP (R135) and RESTORE (R138). -/

namespace Sys2Proof.Proofs

open Sys2Proof Sys2Proof.Machine

section Lifecycle

variable {s : State}

/-! ## START in `UNINIT` (R130, R132), and RESTORE against RESET (R138) -/

/-- In `UNINIT` only the transport decides what START answers. -/
theorem exec_start_of_uninit (uninit : s.st = .uninit) (free : s.outstanding = none) :
    exec .start s =
      .next (if s.draws.connected then ((s.setSt .ready).setLen 0).completeFor s.via .ok
        else s.completeFor s.via .configurationError) := by
  refine (execStart_eq s).trans ?_
  rw [if_pos (writeFree_iff.2 free), if_neg (by simp [uninit])]

theorem exec_restore_eq_exec_reset (s : State) : exec .restore s = exec .reset s :=
  (execRestore_eq s).trans (execReset_eq s).symm

end Lifecycle

/-- Settles O19: RESTORE and RESET have one meaning, so RESTORE's answer is the one O18 states of RESET. -/
theorem restoreIsExactlyReset : Obligations.RestoreIsExactlyReset := by
  refine ⟨by decide, fun s free => ?_, exec_restore_eq_exec_reset⟩
  exact (exec_restore_eq_exec_reset s).trans (resetEmptiesTheLength.2 s free)

/-- Settles O20: the two answers of `exec_start_of_uninit`. -/
theorem startSamplesConnected : Obligations.StartSamplesConnected := by
  refine ⟨by decide, fun s uninit free => ⟨fun connected => ?_, fun apart => ?_⟩⟩
  · rw [exec_start_of_uninit uninit free, if_pos connected]
    rfl
  · rw [exec_start_of_uninit uninit free, if_neg (by simp [apart])]
    rfl

/-- Settles O21: `State.refuse` sets the mark and moves the index on, whatever the transport's level. -/
theorem startInReadyIsRefused : Obligations.StartInReadyIsRefused :=
  fun _ ready free => exec_start_of_ready ready free

/-- Settles O22: STOP is performed in either Relay state as long as no write is outstanding. -/
theorem stopEntersUninit : Obligations.StopEntersUninit := by
  refine ⟨by decide, fun s free => (execStop_eq s).trans ?_⟩
  rw [if_pos (writeFree_iff.2 free)]
  rfl

end Sys2Proof.Proofs
end

section
/-! SUPPORT. The proofs about 42_relay_datapaths.md: SEND, answered at once or by a later acknowledge (R150
to R157), TEVENT (R160), and that of all commands START alone reads `tp_connected` (R161). -/

namespace Sys2Proof.Proofs

open Sys2Proof Sys2Proof.Machine

section SendAnswers

variable {s : State} {via : Port} {c n : Nat}

/-! ## How a write finishes (R150, R155) -/

/-- A short write is reported once, before its status. -/
theorem finishWrite_of_lt (short : n < s.cfg.frameSize) :
    s.finishWrite via n =
      { s with
        history := s.history ++ [.report .shortWriteError n, .status via .ok]
        outstanding := none, index := s.index + 1 } := by
  rw [finishWrite_eq, if_pos short, List.append_cons]
  rfl

/-- A write of `N` bytes or more is not reported. -/
theorem finishWrite_of_le (full : s.cfg.frameSize ≤ n) :
    s.finishWrite via n =
      { s with
        history := s.history ++ [.status via .ok]
        outstanding := none, index := s.index + 1 } := by
  rw [finishWrite_eq, if_neg (Nat.not_lt.2 full)]
  rfl

theorem reported_finishWrite_of_lt (short : n < s.cfg.frameSize) :
    reported (s.finishWrite via n).history = reported s.history ++ [(2#2, n)] := by
  simp [finishWrite_of_lt short, ReportCode.code]

theorem written_finishWrite : written (s.finishWrite via n).history = written s.history := by
  rw [finishWrite_history]
  split <;> simp

/-! ## SEND by the answer of the transport (R150, R153) -/

theorem withAnswer_ackCount_self : s.withAnswer s.draws.ackCount = s := rfl

theorem exec_send_of_answer (ready : s.trafficReady = true) (answered : s.draws.ackCount = some c) :
    exec .send s =
      .next ((s.emit (.txWrite s.frameOperand)).finishWrite s.via (countOfBus s.cfg c)) := by
  have sends := exec_send_answered c ready
  rwa [← answered, withAnswer_ackCount_self] at sends

theorem exec_send_of_no_answer (ready : s.trafficReady = true) (silent : s.draws.ackCount = none) :
    exec .send s = .next ((s.emit (.txWrite s.frameOperand)).setOutstanding (some s.via)) := by
  have sends := exec_send_unanswered ready
  rwa [← silent, withAnswer_ackCount_self] at sends

end SendAnswers

section ShortWrites

variable {s t u : State} {b : Beat} {bs rest : List Beat}

/-! ## A run of short SENDs (R154, R157) -/

/-- A SEND, by either port, that the transport answers within the command with a count below `N`. -/
def ShortSend (p : Params) (b : Beat) : Prop :=
  b.command? = some .send ∧ ∃ c, b.draws.ackCount = some c ∧ countOfBus p c < p.frameSize

/-- From `s` to `t` each beat of `bs` has written its frame once and has had its count reported once,
and nothing else that R157 speaks of has happened. -/
structure OnlyReports (bs : List Beat) (s t : State) : Prop where
  cfg : t.cfg = s.cfg
  reports : reported t.history = reported s.history ++
    bs.map fun b => (2#2, countOfBus s.cfg (b.draws.ackCount.getD 0))
  writes : written t.history = written s.history ++ bs.map fun b => frameOfBus s.cfg b.draws.fiData
  delivers : delivered t.history = delivered s.history
  st : t.st = s.st
  len : t.len = s.len
  buf : t.buf = s.buf
  outstanding : t.outstanding = s.outstanding
  refused : t.refused = s.refused

theorem OnlyReports.refl (s : State) : OnlyReports [] s s :=
  ⟨rfl, by simp, by simp, rfl, rfl, rfl, rfl, rfl, rfl⟩

theorem OnlyReports.trans {bs cs : List Beat} (first : OnlyReports bs s t) (second : OnlyReports cs t u) :
    OnlyReports (bs ++ cs) s u where
  cfg := second.cfg.trans first.cfg
  reports := by rw [second.reports, first.reports, first.cfg, List.map_append, List.append_assoc]
  writes := by rw [second.writes, first.writes, first.cfg, List.map_append, List.append_assoc]
  delivers := second.delivers.trans first.delivers
  st := second.st.trans first.st
  len := second.len.trans first.len
  buf := second.buf.trans first.buf
  outstanding := second.outstanding.trans first.outstanding
  refused := second.refused.trans first.refused

/-- A short SEND is taken by whichever port, and only reports. -/
theorem step_shortSend (ready : s.trafficReady = true) (offered : s.pending = b :: rest)
    (short : ShortSend s.cfg b) :
    ∃ t, step s = .next t ∧ OnlyReports [b] s t ∧ t.pending = rest := by
  obtain ⟨requests, c, answered, below⟩ := short
  obtain ⟨via, steps⟩ := step_of_trafficReady ready offered requests
  have sends := exec_send_of_answer (s := s.accept via b.draws rest) ready answered
  have free : s.outstanding = none := (trafficReady_iff.1 ready).2
  refine ⟨_, steps.trans sends, ?_, by simp⟩
  constructor
  case reports =>
    rw [accept_cfg, reported_finishWrite_of_lt (s := (s.accept via b.draws rest).emit _) below]
    simp [answered]
  case writes =>
    rw [written_finishWrite]
    simp [State.frameOperand]
  case delivers =>
    rw [delivered_finishWrite]
    simp
  all_goals simp [free]

/-- A run over short SENDs takes them all, and only reports. -/
theorem run_shortSends (ready : s.trafficReady = true) (offered : s.pending = bs ++ rest)
    (short : ∀ b ∈ bs, ShortSend s.cfg b) :
    ∃ t, run bs.length s = .next t ∧ OnlyReports bs s t ∧ t.pending = rest := by
  induction bs generalizing s with
  | nil => exact ⟨s, rfl, .refl s, offered⟩
  | cons b bs ih =>
    obtain ⟨first, others⟩ := List.forall_mem_cons.1 short
    obtain ⟨m, steps, reports, offered'⟩ := step_shortSend ready offered first
    obtain ⟨st, free⟩ := trafficReady_iff.1 ready
    have ready' : m.trafficReady = true :=
      trafficReady_iff.2 ⟨reports.st.trans st, reports.outstanding.trans free⟩
    obtain ⟨t, ran, reports', left⟩ := ih ready' offered' (reports.cfg ▸ others)
    exact ⟨t, (run_succ _ steps).trans ran, reports.trans reports', left⟩

end ShortWrites

/-- Settles O29: each short SEND only reports (`step_shortSend`), and so a run of them does
(`run_shortSends`, by induction over the beats). -/
theorem repeatedShortWritesOnlyReport : Obligations.RepeatedShortWritesOnlyReport := by
  intro s bs rest st free offered short
  obtain ⟨t, ran, only, left⟩ := run_shortSends (trafficReady_iff.2 ⟨st, free⟩) offered short
  exact ⟨t, ran, only.reports, only.writes, only.delivers, only.st, only.len, only.buf,
    only.outstanding.trans free, only.refused, left⟩

section Connected

variable {s : State}

/-! ## The level of `tp_connected` (R161)

Setting the level commutes with every operation that does not read it, so with every command but START. -/

/-- An outcome with the level `c` on `tp_connected` of its next state. -/
def withConnected (c : Bool) (r : Result) : Result :=
  match r with
  | .next t => .next (t.withConnected c)
  | .fault r => .fault r
  | .refused r => .refused r

theorem withConnected_finishWrite (c : Bool) (via : Port) (count : Nat) :
    (s.finishWrite via count).withConnected c = (s.withConnected c).finishWrite via count := by
  rw [finishWrite_eq, finishWrite_eq, apply_ite (State.withConnected · c)]
  rfl

theorem execFeedByte_withConnected (b : Byte) (c : Bool) :
    execFeedByte b (s.withConnected c) = withConnected c (execFeedByte b s) := by
  rcases execFeedByte_cases b s with
    ⟨idle, held⟩ | ⟨ready, room, stored⟩ | ⟨f, ready, full, read, drained⟩ |
    ⟨r, ready, full, unread, fault⟩ | ⟨ready, beyond, fault⟩
  · rw [held]
    exact execFeedByte_held b idle
  · rw [stored]
    exact execFeedByte_stored b ready room
  · rw [drained]
    exact execFeedByte_drained b ready full read
  · rw [fault]
    exact execFeedByte_eq_fault.2 ⟨ready, .inr ⟨full, unread⟩⟩
  · rw [fault]
    exact execFeedByte_eq_fault.2 ⟨ready, .inl ⟨beyond, rfl⟩⟩

theorem exec_lengthReset_withConnected {i : Instr} (c : Bool)
    (resets : i = .reset ∨ i = .stop ∨ i = .restore) :
    exec i (s.withConnected c) = withConnected c (exec i s) := by
  obtain ⟨enters, -, meaning⟩ := exec_lengthReset resets
  rw [meaning, meaning, withConnected, apply_ite (State.withConnected · c)]
  rfl

theorem execSend_withConnected (c : Bool) :
    execSend (s.withConnected c) = withConnected c (execSend s) := by
  have answer : (s.withConnected c).draws.ackCount = s.draws.ackCount := rfl
  rw [execSend_eq, execSend_eq, withConnected, answer, apply_ite (State.withConnected · c)]
  cases s.draws.ackCount with
  | some count =>
    dsimp only
    rw [withConnected_finishWrite]
    rfl
  | none => rfl

theorem exec_withConnected {i : Instr} (c : Bool) (other : i ≠ .start) :
    exec i (s.withConnected c) = withConnected c (exec i s) := by
  cases i with
  | feedByte b => exact execFeedByte_withConnected b c
  | reset => exact exec_lengthReset_withConnected c (by simp)
  | start => exact absurd rfl other
  | stop => exact exec_lengthReset_withConnected c (by simp)
  | restore => exact exec_lengthReset_withConnected c (by simp)
  | send => exact execSend_withConnected c
  | tevent tag => rfl

end Connected

/-- Settles O31: setting the level commutes with every command but START (`exec_withConnected`). -/
theorem onlyStartReadsConnected : Obligations.OnlyStartReadsConnected := by
  intro i s c other
  rw [exec_withConnected c other]
  rfl

/-- Settles O15: the traffic commands find that the Relay does not relay, and the others that a write is
outstanding. -/
theorem outstandingWriteHoldsCommands : Obligations.OutstandingWriteHoldsCommands := by
  intro i s waits other
  have busy : ¬ s.writeFree = true := fun free => waits (writeFree_iff.1 free)
  have idle : s.trafficReady = false := trafficReady_eq_false_iff.2 (.inr waits)
  cases i with
  | feedByte b => exact execFeedByte_held b idle
  | reset => exact (execReset_eq s).trans (by rw [if_neg busy])
  | start => exact (execStart_eq s).trans (by rw [if_neg busy])
  | stop => exact (execStop_eq s).trans (by rw [if_neg busy])
  | restore => exact (execRestore_eq s).trans (by rw [if_neg busy])
  | send => exact (execSend_eq s).trans (by simp [idle])
  | tevent tag => exact absurd rfl (other tag)

/-- Settles O24: the write of `exec_send_of_answer`, finished short or in full. -/
theorem sendWritesAndChecksCount : Obligations.SendWritesAndChecksCount := by
  refine ⟨by decide, fun s c st free answered => ?_⟩
  rw [exec_send_of_answer (trafficReady_iff.2 ⟨st, free⟩) answered]
  refine ⟨fun short => ?_, fun full => ?_⟩
  · rw [finishWrite_of_lt (s := s.emit _) short, emit_history, List.append_assoc, ← free]
    rfl
  · rw [finishWrite_of_le (s := s.emit _) full, emit_history, List.append_assoc, ← free]
    rfl

/-- Settles O25: the waiting write of `exec_send_of_no_answer`. -/
theorem unansweredSendWaits : Obligations.UnansweredSendWaits :=
  fun _ st free silent => exec_send_of_no_answer (trafficReady_iff.2 ⟨st, free⟩) silent

/-- Settles O26: the acknowledge finishes the waiting write (`step_ack`), short or in full. -/
theorem acknowledgeCompletesWaitingSend : Obligations.AcknowledgeCompletesWaitingSend := by
  intro s v c d rest waits offered
  rw [step_ack offered waits]
  exact ⟨fun short => congrArg _ (finishWrite_of_lt (s := s.setPending rest) short),
    fun full => congrArg _ (finishWrite_of_le (s := s.setPending rest) full)⟩

/-- Settles O28: neither the write nor what finishes it touches the Relay's registers, and a SEND that is
not held finds the Relay in `READY`. -/
theorem sendKeepsReassemblyState : Obligations.SendKeepsReassemblyState := by
  intro s t answers
  cases (execSend_eq s).symm.trans answers
  split
  · next ready =>
    have st : s.st = .ready := (trafficReady_iff.1 ready).1
    split <;> simp [st]
  · exact ⟨rfl, rfl, rfl, fun reports => absurd rfl reports⟩

section TeventWord

/-! ## The word of TEVENT as the assembler's rule writes it (R84) -/

/-- A word of the format of R77 is its `IMM8` shifted into place, with the `OP` in the low bits. -/
theorem wordOf_eq_or (imm : Byte) (op : BitVec 4) :
    wordOf imm op = (imm.zeroExtend 16 <<< 8) ||| op.zeroExtend 16 := by
  have immBound : imm.toNat < 256 := imm.isLt
  have opBound : op.toNat < 16 := op.isLt
  have shifted : (imm.zeroExtend 16 <<< 8).toNat = imm.toNat <<< 8 := by
    rw [BitVec.toNat_shiftLeft, BitVec.toNat_setWidth_of_le (by decide), Nat.shiftLeft_eq]
    omega
  apply BitVec.eq_of_toNat_eq
  calc (wordOf imm op).toNat = imm.toNat <<< 8 + op.toNat := by
        rw [wordOf_toNat, Nat.shiftLeft_eq, Nat.mul_comm]
    _ = imm.toNat <<< 8 ||| op.toNat := Nat.shiftLeft_add_eq_or_of_lt (by omega) _
    _ = ((imm.zeroExtend 16 <<< 8) ||| op.zeroExtend 16).toNat := by
        rw [BitVec.toNat_or, shifted, BitVec.toNat_setWidth_of_le (by decide)]

theorem encode_tevent (tag : Byte) : encode (.tevent tag) = (tag.zeroExtend 16 <<< 8) ||| 0x7#16 :=
  wordOf_eq_or tag 7#4

end TeventWord

/-- Settles O30: TEVENT's word is `encode_tevent`, its meaning `execTevent_eq`. -/
theorem teventHasNoEffect : Obligations.TeventHasNoEffect :=
  ⟨encode_tevent, execTevent_eq⟩

end Sys2Proof.Proofs
end

section
/-! SUPPORT. The proofs about 60_exceptions.md: a block to which nothing is offered (R187), the codes of the
outputs (R174), what moves the Relay (R181), and where errors come from (R170, R175, R176). -/

namespace Sys2Proof.Proofs

open Sys2Proof Sys2Proof.Machine

section Idle

variable {s : State}

/-! ## A block to which nothing is offered (R187, R191) -/

theorem run_of_idle (idle : s.pending = []) (k : Nat) : run k s = .next s := by
  induction k with
  | zero => rfl
  | succ k ih => exact (run_succ k (step_nil idle)).trans ih

end Idle

/-- Settles O10: an idle step is `step_nil`, and a run of idle steps stays where it begins. -/
theorem idleBlockKeepsItsState : Obligations.IdleBlockKeepsItsState :=
  ⟨fun _ idle => step_nil idle, fun _ k => run_of_idle rfl k⟩

section Codes

variable {h : List Event}

/-! ## The codes that the outputs can carry (R71, R76, R174) -/

/-- A pulse of `done_valid` carries the code of a status. -/
theorem eq_statusCode_of_mem_donePulses {d : BitVec 2} (pulse : d ∈ donePulses h) :
    ∃ code : Status, d = code.code := by
  obtain ⟨e, -, done⟩ := List.mem_filterMap.1 pulse
  unfold Event.done? at done
  split at done
  · next code => exact ⟨code, (Option.some.inj done).symm⟩
  · cases done

theorem statusCode_eq_zero_or_one (code : Status) : code.code = 0#2 ∨ code.code = 1#2 := by
  cases code with
  | ok => exact .inl rfl
  | configurationError => exact .inr rfl

/-- A pulse of `err_valid` carries the code of a report. -/
theorem eq_reportCode_of_mem_reported {r : BitVec 2 × Nat} (pulse : r ∈ reported h) :
    ∃ code : ReportCode, r.1 = code.code := by
  obtain ⟨e, -, reports⟩ := List.mem_filterMap.1 pulse
  unfold Event.reported? at reports
  split at reports
  · next code info => exact ⟨code, congrArg Prod.fst (Option.some.inj reports).symm⟩
  · cases reports

theorem reportCode_eq (code : ReportCode) : code.code = 2#2 := by
  cases code
  rfl

end Codes

/-- Settles O50: a pulse carries the code of a status or of a report, and there are two statuses and one
report; START answers as `exec_start_of_uninit` says. -/
theorem codesOnTheOutputs : Obligations.CodesOnTheOutputs := by
  refine ⟨⟨rfl, rfl⟩, ⟨rfl, rfl⟩, rfl, fun h => ⟨fun d pulse => ?_, fun r pulse => ?_⟩,
    fun s uninit free via => ⟨_, exec_start_of_uninit uninit free, ?_⟩⟩
  · obtain ⟨code, rfl⟩ := eq_statusCode_of_mem_donePulses pulse
    exact statusCode_eq_zero_or_one code
  · obtain ⟨code, is⟩ := eq_reportCode_of_mem_reported pulse
    exact is.trans (reportCode_eq code)
  · cases s.draws.connected <;> simp [donePulses_status, via, uninit, Status.code, RelayState.code]

section RelayMoves

variable {s t : State}

/-! ## What moves the Relay (R130, R135, R181) -/

theorem exec_keeps_st {i : Instr} (notStart : i ≠ .start) (notStop : i ≠ .stop)
    (answers : exec i s = .next t) : t.st = s.st := by
  cases i with
  | feedByte b =>
    rcases execFeedByte_cases b s with
      ⟨-, e⟩ | ⟨-, -, e⟩ | ⟨f, -, -, -, e⟩ | ⟨r, -, -, -, e⟩ | ⟨-, -, e⟩ <;>
    cases e.symm.trans answers <;> rfl
  | reset =>
    cases (execReset_eq s).symm.trans answers
    split <;> rfl
  | start => exact absurd rfl notStart
  | stop => exact absurd rfl notStop
  | restore =>
    cases (execRestore_eq s).symm.trans answers
    split <;> rfl
  | send => exact (sendKeepsReassemblyState s t answers).1
  | tevent tag =>
    cases (execTevent_eq tag s).symm.trans answers
    rfl

theorem uninit_of_ne_ready (other : s.st ≠ .ready) : s.st = .uninit := by
  cases st : s.st with
  | uninit => rfl
  | ready => exact absurd st other

/-- Of the four answers of START only the successful one has another Relay state. -/
theorem exec_start_moves (answers : exec .start s = .next t) (moves : t.st ≠ s.st) :
    s.st = .uninit ∧ s.draws.connected = true ∧ t.st = .ready := by
  cases (execStart_eq s).symm.trans answers
  split_ifs at moves ⊢ with free ready connected
  · exact absurd rfl moves
  · exact ⟨uninit_of_ne_ready ready, connected, rfl⟩
  · exact absurd rfl moves
  · exact absurd rfl moves

theorem exec_stop_moves (answers : exec .stop s = .next t) (moves : t.st ≠ s.st) :
    s.st = .ready ∧ t.st = .uninit := by
  cases (execStop_eq s).symm.trans answers
  split_ifs at moves ⊢ with free
  · cases st : s.st with
    | uninit => exact absurd st.symm moves
    | ready => exact ⟨rfl, rfl⟩
  · exact absurd rfl moves

end RelayMoves

/-- Settles O40: START and STOP move the Relay as R130 and R135 say, and no other command moves it
(`exec_keeps_st`). -/
theorem onlyStartAndStopMoveTheRelay : Obligations.OnlyStartAndStopMoveTheRelay := by
  intro i s t answers moves
  by_cases start : i = .start
  · subst start
    exact .inl ⟨rfl, exec_start_moves answers moves⟩
  · by_cases stop : i = .stop
    · subst stop
      exact .inr ⟨rfl, exec_stop_moves answers moves⟩
    · exact absurd (exec_keeps_st start stop answers) moves

section Errors

variable {i : Instr} {s t : State} {es : List Event}

/-! ## Where errors come from (R170, R175, R176) -/

/-- The two errors of R170: a report, and the status `CONFIGURATION_ERROR`. -/
def isError : Event → Bool
  | .report _ _ => true
  | .status _ .configurationError => true
  | _ => false

/-- The errors among the events `es` that a command can append: none, or the one of START in `UNINIT`
without the transport, or the one of SEND answered with a short count. -/
inductive ErrorCase (i : Instr) (s : State) : List Event → Prop
  | errorFree {evs : List Event} (free : ∀ e ∈ evs, isError e = false) : ErrorCase i s evs
  | configuration (start : i = .start) (uninit : s.st = .uninit)
      (apart : s.draws.connected = false) :
      ErrorCase i s [.status s.via .configurationError]
  | shortWrite {a : Nat} (send : i = .send) (answered : s.draws.ackCount = some a)
      (short : countOfBus s.cfg a < s.cfg.frameSize) :
      ErrorCase i s [.txWrite s.frameOperand, .report .shortWriteError (countOfBus s.cfg a),
        .status s.via .ok]

/-- From `s` to `t` the command `i` has appended events with the errors of `ErrorCase`. -/
def AppendsErrors (i : Instr) (s t : State) : Prop :=
  ∃ es, t.history = s.history ++ es ∧ ErrorCase i s es

theorem AppendsErrors.of_unchanged (history : t.history = s.history) : AppendsErrors i s t :=
  ⟨[], by simp [history], .errorFree (by simp)⟩

/-- A command that completes with `OK` adds no error to those it has appended before. -/
theorem AppendsErrors.completeFor_ok (via : Port) (history : t.history = s.history ++ es)
    (free : ∀ e ∈ es, isError e = false) : AppendsErrors i s (t.completeFor via .ok) := by
  refine ⟨es ++ [.status via .ok], by simp [history], .errorFree ?_⟩
  exact List.forall_mem_append.2 ⟨free, by simp [isError]⟩

theorem execFeedByte_appendsErrors {b : Byte} (answers : execFeedByte b s = .next t) :
    AppendsErrors i s t := by
  rcases execFeedByte_cases b s with
    ⟨-, e⟩ | ⟨-, -, e⟩ | ⟨f, -, -, -, e⟩ | ⟨r, -, -, -, e⟩ | ⟨-, -, e⟩ <;>
  cases e.symm.trans answers
  · exact .of_unchanged rfl
  · exact .completeFor_ok (es := []) _ (by simp) (by simp)
  · exact .completeFor_ok (es := [.deliver f]) _ rfl (by simp [isError])

theorem exec_lengthReset_appendsErrors (resets : i = .reset ∨ i = .stop ∨ i = .restore)
    (answers : exec i s = .next t) : AppendsErrors i s t := by
  obtain ⟨enters, -, meaning⟩ := exec_lengthReset resets
  cases (meaning s).symm.trans answers
  split
  · exact .completeFor_ok (es := []) _ (by simp) (by simp)
  · exact .of_unchanged rfl

theorem execStart_appendsErrors (answers : execStart s = .next t) : AppendsErrors .start s t := by
  cases (execStart_eq s).symm.trans answers
  split_ifs with free ready connected
  · exact .of_unchanged rfl
  · exact .completeFor_ok (es := []) _ (by simp) (by simp)
  · exact ⟨_, rfl, .configuration rfl (uninit_of_ne_ready ready)
      (Bool.eq_false_of_not_eq_true connected)⟩
  · exact .of_unchanged rfl

theorem execSend_appendsErrors (answers : execSend s = .next t) : AppendsErrors .send s t := by
  cases (execSend_eq s).symm.trans answers
  split
  · cases answer : s.draws.ackCount with
    | none =>
      exact ⟨[.txWrite s.frameOperand], rfl, .errorFree (by simp [isError])⟩
    | some a =>
      dsimp only
      rw [finishWrite_eq]
      split_ifs with short
      · refine ⟨_, ?_, .shortWrite rfl answer short⟩
        simp
      · exact .completeFor_ok (es := [.txWrite s.frameOperand]) _ rfl (by simp [isError])
  · exact .of_unchanged rfl

theorem exec_appendsErrors (answers : exec i s = .next t) : AppendsErrors i s t := by
  cases i with
  | feedByte b => exact execFeedByte_appendsErrors answers
  | reset => exact exec_lengthReset_appendsErrors (by simp) answers
  | start => exact execStart_appendsErrors answers
  | stop => exact exec_lengthReset_appendsErrors (by simp) answers
  | restore => exact exec_lengthReset_appendsErrors (by simp) answers
  | send => exact execSend_appendsErrors answers
  | tevent tag =>
    cases (execTevent_eq tag s).symm.trans answers
    exact .completeFor_ok (es := []) _ (by simp) (by simp)

namespace ErrorCase

theorem of_configurationError {v : Port} (errors : ErrorCase i s es)
    (raised : .status v .configurationError ∈ es) :
    i = .start ∧ s.st = .uninit ∧ s.draws.connected = false := by
  cases errors with
  | errorFree free => cases free _ raised
  | configuration start uninit apart => exact ⟨start, uninit, apart⟩
  | shortWrite => simp at raised

theorem of_report {c : ReportCode} {n : Nat} (errors : ErrorCase i s es)
    (raised : .report c n ∈ es) :
    i = .send ∧ n < s.cfg.frameSize ∧ ∃ a, s.draws.ackCount = some a ∧ n = countOfBus s.cfg a := by
  cases errors with
  | errorFree free => cases free _ raised
  | configuration => simp at raised
  | @shortWrite a send answered short =>
    obtain ⟨-, rfl⟩ : c = .shortWriteError ∧ n = countOfBus s.cfg a := by simpa using raised
    exact ⟨send, short, a, answered, rfl⟩

theorem filter_length_le_one (errors : ErrorCase i s es) : (es.filter isError).length ≤ 1 := by
  cases errors with
  | errorFree free =>
    rw [List.filter_eq_nil_iff.2 fun e mem => by simp [free e mem]]
    exact Nat.zero_le 1
  | configuration => exact le_rfl
  | shortWrite => exact le_rfl

end ErrorCase

end Errors

/-- Settles O41: the errors that a command appends are those of one `ErrorCase`. -/
theorem errorsComeFromTheirCommands : Obligations.ErrorsComeFromTheirCommands := by
  intro i s t answers
  obtain ⟨es, history, errors⟩ := exec_appendsErrors answers
  exact ⟨es, history, fun _ => errors.of_configurationError, fun _ _ => errors.of_report,
    errors.filter_length_le_one⟩

end Sys2Proof.Proofs
end

section
/-! SUPPORT. The proofs about 70_reset_and_hazards.md: the power-on state (R190), what lifts a hold (R202),
that an offered command is taken unless it is held (R203), and the environment's duties (R199). -/

namespace Sys2Proof.Proofs

open Sys2Proof Sys2Proof.Machine

section Holds

variable {s t : State} {b : Beat} {rest : List Beat} {i : Instr} {v : Port}

/-! ## What is held (R153, R175, R101, R151) -/

/-- FEED_BYTE and SEND, the commands that need the Relay to relay. -/
abbrev NeedsReady (i : Instr) : Prop := i = .send ∨ ∃ c, i = .feedByte c

/-- The command `i`, offered on the port `v`, is held: a write is outstanding and `v` is not the event
port, or `i` needs the Relay to relay and it is in `UNINIT`. -/
abbrev Held (s : State) (i : Instr) (v : Port) : Prop :=
  (s.outstanding ≠ none ∧ v ≠ .transportEvent) ∨ (NeedsReady i ∧ s.st = .uninit)

theorem cmdReady_eq_false_iff_held {w : Word} (reads : decode w = .ok i) :
    s.cmdReady w = false ↔ Held s i .command := by
  rw [← Bool.not_eq_true, cmdReady_iff reads, not_and_or, Classical.not_imp]
  cases st : s.st <;> simp [Held, st]

theorem trafficReady_eq_false_iff_held (needs : NeedsReady i) (other : v ≠ .transportEvent) :
    s.trafficReady = false ↔ Held s i v := by
  simp [Held, trafficReady_eq_false_iff, needs, other, or_comm]

/-- On the event port comes TEVENT alone (R73). -/
theorem command?_of_transportEvent (requests : b.command? = some i)
    (arrives : b.port? = some .transportEvent) : ∃ tag, i = .tevent tag := by
  obtain ⟨offer, d⟩ := b
  cases offer with
  | event tag => exact ⟨tag, (Option.some.inj requests).symm⟩
  | _ => cases arrives

theorem decode_of_command? {w : Word} {d : Draws} (requests : Beat.command? ⟨.command w, d⟩ = some i) :
    decode w = .ok i := by
  cases reads : decode w with
  | ok j => simpa [Beat.command?, reads] using requests
  | error r => simp [Beat.command?, reads] at requests

/-- A step on a beat that requests a command goes by one ready output, which is low exactly while the
command is held. -/
theorem step_of_request (offered : s.pending = b :: rest) (requests : b.command? = some i)
    (arrives : b.port? = some v) :
    ∃ ready : Bool, (ready = false ↔ Held s i v) ∧
      step s = if ready then exec i (s.accept v b.draws rest) else .next s := by
  have steps : step s = perform b rest s := step_cons offered
  obtain ⟨offer, d⟩ := b
  cases offer with
  | command w =>
    cases arrives
    have reads := decode_of_command? requests
    refine ⟨s.cmdReady w, cmdReady_eq_false_iff_held reads, steps.trans ?_⟩
    cases ready : s.cmdReady w with
    | true => exact offerWord_performed reads ready
    | false => exact offerWord_held ready
  | rxByte c =>
    cases requests
    cases arrives
    exact ⟨s.trafficReady, trafficReady_eq_false_iff_held (.inr ⟨c, rfl⟩) nofun, steps⟩
  | event tag =>
    cases requests
    cases arrives
    exact ⟨true, by simp [Held], steps⟩
  | frameIn =>
    cases requests
    cases arrives
    exact ⟨s.trafficReady, trafficReady_eq_false_iff_held (.inl rfl) nofun, steps⟩
  | ack c => cases requests

/-! ## What a command does that is not held (R87, R203) -/

/-- Commands take nothing from the environment's sequence: the step does, when it accepts a beat. -/
theorem exec_keeps_pending (answers : exec i s = .next t) : t.pending = s.pending := by
  cases i with
  | feedByte b =>
    rcases execFeedByte_cases b s with
      ⟨-, e⟩ | ⟨-, -, e⟩ | ⟨f, -, -, -, e⟩ | ⟨r, -, -, -, e⟩ | ⟨-, -, e⟩ <;>
    cases e.symm.trans answers <;> rfl
  | reset =>
    cases (execReset_eq s).symm.trans answers
    split <;> rfl
  | start =>
    cases (execStart_eq s).symm.trans answers
    split_ifs <;> rfl
  | stop =>
    cases (execStop_eq s).symm.trans answers
    split <;> rfl
  | restore =>
    cases (execRestore_eq s).symm.trans answers
    split <;> rfl
  | send =>
    cases (execSend_eq s).symm.trans answers
    split
    · split <;> simp
    · rfl
  | tevent tag =>
    cases (execTevent_eq tag s).symm.trans answers
    rfl

/-- From `s` to `t` the command `i` has completed or been refused, or it is a SEND whose write waits. -/
def FinishesOrWaits (i : Instr) (s t : State) : Prop :=
  t.index = s.index + 1 ∨
    (i = .send ∧ s.draws.ackCount = none ∧ t.outstanding = some s.via ∧ t.index = s.index)

theorem exec_lengthReset_of_free (resets : i = .reset ∨ i = .stop ∨ i = .restore)
    (free : s.outstanding = none) : ∃ t, exec i s = .next t ∧ t.index = s.index + 1 := by
  obtain ⟨enters, -, meaning⟩ := exec_lengthReset resets
  refine ⟨_, meaning s, ?_⟩
  rw [if_pos (writeFree_iff.2 free)]
  rfl

theorem exec_start_of_free (free : s.outstanding = none) :
    ∃ t, exec .start s = .next t ∧ t.index = s.index + 1 := by
  refine ⟨_, execStart_eq s, ?_⟩
  rw [if_pos (writeFree_iff.2 free)]
  split_ifs <;> rfl

theorem exec_send_of_ready (ready : s.trafficReady = true) :
    ∃ t, exec .send s = .next t ∧ FinishesOrWaits .send s t := by
  cases answer : s.draws.ackCount with
  | some c => exact ⟨_, exec_send_of_answer ready answer, .inl (by simp)⟩
  | none => exact ⟨_, exec_send_of_no_answer ready answer, .inr ⟨rfl, answer, rfl, rfl⟩⟩

/-- A command that finds no write outstanding, and the Relay relaying if it needs that, is performed;
TEVENT is performed in any state. -/
theorem exec_finishesOrWaits (inv : s.Inv) (free : (∀ tag, i ≠ .tevent tag) → s.outstanding = none)
    (relays : NeedsReady i → s.st = .ready) :
    ∃ t, exec i s = .next t ∧ FinishesOrWaits i s t := by
  have finishes : (∃ t, exec i s = .next t ∧ t.index = s.index + 1) →
      ∃ t, exec i s = .next t ∧ FinishesOrWaits i s t := Exists.imp fun _ => And.imp_right .inl
  cases i with
  | feedByte c =>
    exact finishes (execFeedByte_of_ready c inv (trafficReady_iff.2 ⟨relays (.inr ⟨c, rfl⟩), free nofun⟩))
  | reset => exact finishes (exec_lengthReset_of_free (by simp) (free nofun))
  | start => exact finishes (exec_start_of_free (free nofun))
  | stop => exact finishes (exec_lengthReset_of_free (by simp) (free nofun))
  | restore => exact finishes (exec_lengthReset_of_free (by simp) (free nofun))
  | send => exact exec_send_of_ready (trafficReady_iff.2 ⟨relays (.inl rfl), free nofun⟩)
  | tevent tag => exact finishes ⟨_, execTevent_eq tag s, rfl⟩

/-- What is not held is performed once its beat is accepted. -/
theorem exec_accept_of_not_held (inv : s.Inv) (requests : b.command? = some i)
    (arrives : b.port? = some v) (notHeld : ¬ Held s i v) :
    ∃ t, exec i (s.accept v b.draws rest) = .next t ∧
      FinishesOrWaits i (s.accept v b.draws rest) t := by
  obtain ⟨notWaiting, notUninit⟩ := not_or.1 notHeld
  refine exec_finishesOrWaits (inv_accept v b.draws rest inv) (fun other => ?_) (fun needs => ?_)
  · by_contra waits
    refine notWaiting ⟨waits, ?_⟩
    rintro rfl
    obtain ⟨tag, is⟩ := command?_of_transportEvent requests arrives
    exact other tag is
  · by_contra unready
    exact notUninit ⟨needs, uninit_of_ne_ready unready⟩

/-! ## What lifts a hold (R202) -/

/-- No command answers an outstanding write: each is held, but TEVENT, which leaves the write as it is. -/
theorem exec_keeps_waiting (answers : exec i s = .next t) (waits : s.outstanding ≠ none) :
    t.outstanding = s.outstanding := by
  by_cases event : ∃ tag, i = .tevent tag
  · obtain ⟨tag, rfl⟩ := event
    cases (execTevent_eq tag s).symm.trans answers
    rfl
  · have held := outstandingWriteHoldsCommands i s waits (fun tag is => event ⟨tag, is⟩)
    cases held.symm.trans answers
    rfl

end Holds

/-- Settles O43: the ready output of `step_of_request` is low exactly while the command is held, and with
it high the command is performed (`exec_accept_of_not_held`). -/
theorem offeredCommandIsTakenUnlessHeld : Obligations.OfferedCommandIsTakenUnlessHeld := by
  intro s b rest i v inv offered requests arrives
  obtain ⟨ready, low, steps⟩ := step_of_request offered requests arrives
  refine ⟨fun held => ?_, fun notHeld => ?_⟩
  · rw [steps, low.2 held]
    rfl
  · have high : ready = true := Bool.eq_true_of_not_eq_false (mt low.1 notHeld)
    obtain ⟨t, answers, taken⟩ := exec_accept_of_not_held inv requests arrives notHeld
    exact ⟨t, steps.trans ((if_pos high).trans answers), exec_keeps_pending answers, taken⟩

/-- Settles O42: with no write outstanding a hold of traffic is one in `UNINIT`, which only a START that
connects leaves (`onlyStartAndStopMoveTheRelay`); of all steps the acknowledge alone ends a wait
(`exec_keeps_waiting`). -/
theorem holdsAreLiftedOnlyByTheirEvents : Obligations.HoldsAreLiftedOnlyByTheirEvents := by
  refine ⟨fun i s t answers free idle ready => ?_, fun s t answers waits answered => ?_⟩
  · have uninit : s.st = .uninit :=
      (trafficReady_eq_false_iff.1 idle).resolve_right (not_not_intro free)
    have moved : t.st ≠ s.st := by simp [uninit, (trafficReady_iff.1 ready).1]
    rcases onlyStartAndStopMoveTheRelay i s t answers moved with
      ⟨start, -, connected, -⟩ | ⟨-, relayed, -⟩
    · exact ⟨start, uninit, connected⟩
    · simp [uninit] at relayed
  · cases stepCase_of_step answers with
    | unchanged => exact absurd answered waits
    | performed via _ _ performs =>
      exact absurd ((exec_keeps_waiting performs waits).symm.trans answered) waits
    | refusedWord _ free _ => exact absurd free waits
    | acknowledged offered _ => exact ⟨_, _, _, offered⟩

section Duties

variable {s : State} {b : Beat} {rest : List Beat}

/-! ## A dutiful beat (R199) -/

/-- A beat that keeps the duties is none that the block refuses. -/
theorem not_refusesBeat_of_dutiful (offered : s.pending = b :: rest) (duty : s.dutiful b = true) :
    ¬ RefusesBeat s := by
  rintro ⟨-, w, d, rest', offers, refused⟩
  obtain ⟨rfl, -⟩ := List.cons.inj (offered.symm.trans offers)
  rcases refused with reserved | ⟨start, ready⟩
  · simp [State.dutiful, reserved] at duty
  · simp [State.dutiful, start, ready] at duty

/-- A dutiful acknowledge has a write that waits for it. -/
theorem waits_of_dutiful_ack {c : Nat} (ack : b.offer = .ack c) (duty : s.dutiful b = true) :
    s.outstanding ≠ none := by
  rw [State.dutiful, ack] at duty
  exact Option.isSome_iff_ne_none.1 duty

end Duties

/-- Settles O44: only an unsolicited acknowledge stops a step (`perform_answers_or_unsolicitedAck`) and
only a refused beat sets the mark (`refusesBeat_of_step_refused`), and a dutiful beat is neither. -/
theorem dutifulEnvironmentIsNeverRefused : Obligations.DutifulEnvironmentIsNeverRefused := by
  intro s b rest inv clear offered duty
  rcases perform_answers_or_unsolicitedAck b rest inv with ⟨t, performs⟩ | ⟨-, free, c, ack⟩
  · have answers : step s = .next t := (step_cons offered).trans performs
    refine ⟨t, answers, Bool.eq_false_of_not_eq_true fun mark => ?_⟩
    exact not_refusesBeat_of_dutiful offered duty (refusesBeat_of_step_refused answers clear mark)
  · exact absurd free (waits_of_dutiful_ack ack duty)

/-- Settles O34: the fields of `State.powerOn`, whose empty accumulator lists no cell (`read_nil`). -/
theorem powerOnState : Obligations.PowerOnState :=
  ⟨fun _ => ⟨rfl, rfl, rfl, read_nil, rfl, rfl, rfl⟩, rfl, rfl⟩

end Sys2Proof.Proofs
end
